-- ==== Sys2Proof/Word.lean ====
section
/-! DEFINITION. The value types of the XDY engine: bytes, words and lanes (R10). -/

namespace Sys2Proof

/-- A byte is 8 bits (R10). -/
abbrev Byte := BitVec 8

/-- A register value or command word: 32 bits (R8, R10). -/
abbrev Word := BitVec 32

/-- A lane of a plane: 32 bits (R10, R15). -/
abbrev Lane := BitVec 32

end Sys2Proof
end

