-- ==== Sys2Proof/Config.lean ====
section
/-! DEFINITION. What an implementation of the XDY engine fixes (the parameters of R9) and the values the spec leaves free. -/

namespace Sys2Proof

/-- The parameter `P_CTX_PORT`: whether opcodes 0x10 to 0x12 exist (R9, R89). -/
inductive CtxPort
  | present
  | absent
deriving DecidableEq, Repr

/-- The implementation parameters of R9. They never change while a machine runs. -/
structure Params where
  /-- `BASE`: bus address of register offset 0x00. -/
  base : Nat
  /-- `DIN_DEPTH`: capacity of the input byte buffer (R62). -/
  dinDepth : Nat
  /-- `DOUT_DEPTH`: capacity of the output byte buffer (R63). -/
  doutDepth : Nat
  /-- `P_CTX_PORT`. -/
  ctxPort : CtxPort
  /-- `PERM_LATENCY`: 0 is the reference implementation REF of R64, which executes a command at the
  access that completes its input. Above 0 the command executes at a later engine step (log 4). -/
  permLatency : Nat
deriving DecidableEq, Repr

/-- The legal parameter values of R9. -/
abbrev Params.Legal (p : Params) : Prop :=
  p.base % 256 = 0 ∧ 1 ≤ p.dinDepth ∧ 1 ≤ p.doutDepth

/-- The parameters `State.reset` carries: `P_CTX_PORT` at the default of R9; the others are a
DESIGN CHOICE (log 1), the reference implementation REF, whose buffers never fill (R62, R63).
65584 = 65535 + 49 is the bound R27 gives for `IN_NEED`. -/
def Params.reference : Params :=
  { base := 0, dinDepth := 65584, doutDepth := 65584, ctxPort := .present, permLatency := 0 }

/-- FREE VALUE (R41, I1; log 7): the bit that STATUS.MODE or STATUS.PHASE shows while BUSY = 1. -/
opaque Config.freeStatusBit : Nat → BitVec 1

/-- FREE VALUE (R53, I14; log 8): the byte on an undriven data lane of a narrow write. -/
opaque Config.freeLaneByte : Nat → Byte

end Sys2Proof
end

