-- ==== Sys2Proof/Syntax.lean ====
section
/-! DEFINITION. The commands of the XDY engine: one constructor per row of spec/opcode_table.json (R85). -/

namespace Sys2Proof

/-- A command (R85). The lengths are counts of bytes (R86), so they are natural numbers; the ranges
their fields can hold are `Instr.wellFormed`. -/
inductive Instr
  /-- INIT_HASH, format N (R170). -/
  | initHash
  /-- INIT_KEYED, format K (R190). -/
  | initKeyed (klen idlen clen : Nat)
  /-- ABSORB, format L (R172). -/
  | absorb (len : Nat) (cont : Bool)
  /-- SQUEEZE, format L (R174). -/
  | squeeze (len : Nat) (cont : Bool)
  /-- SQUEEZE_KEY, format L (R193). -/
  | squeezeKey (len : Nat) (cont : Bool)
  /-- ENCRYPT, format L (R195). -/
  | encrypt (len : Nat) (cont : Bool)
  /-- DECRYPT, format L (R197). -/
  | decrypt (len : Nat) (cont : Bool)
  /-- RATCHET, format N (R199). -/
  | ratchet
  /-- PERMUTE, format N (R125). -/
  | permute
  /-- CTX_SAVE, format N (R220). -/
  | ctxSave
  /-- CTX_RESTORE, format N (R222). -/
  | ctxRestore
deriving DecidableEq, Repr

end Sys2Proof
end

