-- ==== Sys2Proof/WellFormed.lean ====
section
/-! DEFINITION. Which commands have a command word: every operand fits its field (R83, R84, R86). -/

namespace Sys2Proof

/-- A LEN field holds 0 to 65535 (R83). -/
def lenFits (len : Nat) : Bool := len < 2 ^ 16

/-- A KLEN or IDLEN field holds 0 to 63 (R84). -/
def keyFieldFits (n : Nat) : Bool := n < 2 ^ 6

/-- A CLEN field holds 0 to 255 (R84). -/
def clenFits (n : Nat) : Bool := n < 2 ^ 8

/-- Every operand fits its field. The key-length limit of R190 is NOT a well-formedness check: a word
that breaks it is legal and faults when presented (R57). -/
def Instr.wellFormed : Instr → Bool
  | .initHash => true
  | .initKeyed klen idlen clen => keyFieldFits klen && keyFieldFits idlen && clenFits clen
  | .absorb len _ => lenFits len
  | .squeeze len _ => lenFits len
  | .squeezeKey len _ => lenFits len
  | .encrypt len _ => lenFits len
  | .decrypt len _ => lenFits len
  | .ratchet => true
  | .permute => true
  | .ctxSave => true
  | .ctxRestore => true

/-- The check as a proposition. -/
abbrev Instr.WellFormed (i : Instr) : Prop := i.wellFormed = true

end Sys2Proof
end

