-- ==== Sys2Proof/Decode.lean ====
section
/-! DEFINITION. Decoding of 32-bit command words, total and rejecting by name (R80 to R91), and the encoder (R93). -/

namespace Sys2Proof

/-- Why a word is no command (R88). -/
inductive Illegal
  /-- R88 (a): OPC is not a row of R85 with a mnemonic. -/
  | unlistedOpcode
  /-- R88 (b): a bit marked reserved in the format is 1. -/
  | reservedBits
  /-- R88 (c): OPC is 0x10, 0x11 or 0x12 and `P_CTX_PORT` is absent. -/
  | noContextPort
deriving DecidableEq, Repr

/-- The answer of `decode` (R90). -/
inductive Decoded
  | command (i : Instr)
  | illegal (why : Illegal)
deriving DecidableEq, Repr

/-- `OPC = w[7:0]` (R81). -/
def opcOf (w : Word) : Byte := w.extractLsb' 0 8

/-- `LEN = w[31:16]` (R83, R86). -/
def lenOf (w : Word) : Nat := (w.extractLsb' 16 16).toNat

/-- `CONT = w[8]` (R83, R86). -/
def contOf (w : Word) : Bool := w.getLsbD 8

/-- `KLEN = w[13:8]` (R84, R86). -/
def klenOf (w : Word) : Nat := (w.extractLsb' 8 6).toNat

/-- `IDLEN = w[21:16]` (R84, R86). -/
def idlenOf (w : Word) : Nat := (w.extractLsb' 16 6).toNat

/-- `CLEN = w[31:24]` (R84, R86). -/
def clenOf (w : Word) : Nat := (w.extractLsb' 24 8).toNat

/-- Format N: bits 31:8 are reserved (R82). -/
def decodeN (w : Word) (i : Instr) : Decoded :=
  if w.extractLsb' 8 24 = 0 then .command i else .illegal .reservedBits

/-- Format N of the context port, which needs `P_CTX_PORT` = present (R89). -/
def decodeCtx (port : CtxPort) (w : Word) (i : Instr) : Decoded :=
  if w.extractLsb' 8 24 = 0 then
    match port with
    | .present => .command i
    | .absent => .illegal .noContextPort
  else .illegal .reservedBits

/-- Format L: bits 15:9 are reserved (R83). -/
def decodeL (w : Word) (i : Nat → Bool → Instr) : Decoded :=
  if w.extractLsb' 9 7 = 0 then .command (i (lenOf w) (contOf w)) else .illegal .reservedBits

/-- Format K: bits 15:14 and 23:22 are reserved (R84). -/
def decodeK (w : Word) (i : Nat → Nat → Nat → Instr) : Decoded :=
  if w.extractLsb' 14 2 = 0 ∧ w.extractLsb' 22 2 = 0 then
    .command (i (klenOf w) (idlenOf w) (clenOf w))
  else .illegal .reservedBits

/-- `Decode(w)` of R90. It reads only the word and `P_CTX_PORT` (R91). -/
def decode (port : CtxPort) (w : Word) : Decoded :=
  if opcOf w = 0x01#8 then decodeN w .initHash
  else if opcOf w = 0x02#8 then decodeK w .initKeyed
  else if opcOf w = 0x03#8 then decodeL w .absorb
  else if opcOf w = 0x04#8 then decodeL w .squeeze
  else if opcOf w = 0x05#8 then decodeL w .squeezeKey
  else if opcOf w = 0x06#8 then decodeL w .encrypt
  else if opcOf w = 0x07#8 then decodeL w .decrypt
  else if opcOf w = 0x08#8 then decodeN w .ratchet
  else if opcOf w = 0x10#8 then decodeCtx port w .permute
  else if opcOf w = 0x11#8 then decodeCtx port w .ctxSave
  else if opcOf w = 0x12#8 then decodeCtx port w .ctxRestore
  else .illegal .unlistedOpcode

/-- The instruction the decoder reads from a row's word, with the context port present (the default
of R9). A command is one 32-bit word (R80); bits from `nbits` up are 0. -/
def decodeTableWord (nbits w : Nat) : Option Instr :=
  match decode .present (BitVec.ofNat 32 (w % 2 ^ nbits)) with
  | .command i => some i
  | .illegal _ => none

/-- A row of spec/opcode_table.json: the command word's fixed bits, and whether the row needs
`P_CTX_PORT` = present. -/
structure TableRow where
  mask : Word
  pattern : Word
  needsCtxPort : Bool
deriving DecidableEq, Repr

/-- A word belongs to a row (R85, R88). -/
def TableRow.covers (r : TableRow) (port : CtxPort) (w : Word) : Bool :=
  w &&& r.mask = r.pattern && (!r.needsCtxPort || port = .present)

/-- The opcode table, row by row in its order (R85). -/
def opcodeTable : List TableRow :=
  [ { mask := 0xFFFFFFFF, pattern := 0x00000001, needsCtxPort := false },
    { mask := 0x00C0C0FF, pattern := 0x00000002, needsCtxPort := false },
    { mask := 0x0000FEFF, pattern := 0x00000003, needsCtxPort := false },
    { mask := 0x0000FEFF, pattern := 0x00000004, needsCtxPort := false },
    { mask := 0x0000FEFF, pattern := 0x00000005, needsCtxPort := false },
    { mask := 0x0000FEFF, pattern := 0x00000006, needsCtxPort := false },
    { mask := 0x0000FEFF, pattern := 0x00000007, needsCtxPort := false },
    { mask := 0xFFFFFFFF, pattern := 0x00000008, needsCtxPort := false },
    { mask := 0xFFFFFFFF, pattern := 0x00000010, needsCtxPort := true },
    { mask := 0xFFFFFFFF, pattern := 0x00000011, needsCtxPort := true },
    { mask := 0xFFFFFFFF, pattern := 0x00000012, needsCtxPort := true } ]

/-- The OPC of a command (R85). -/
def Instr.opcode : Instr → Byte
  | .initHash => 0x01
  | .initKeyed _ _ _ => 0x02
  | .absorb _ _ => 0x03
  | .squeeze _ _ => 0x04
  | .squeezeKey _ _ => 0x05
  | .encrypt _ _ => 0x06
  | .decrypt _ _ => 0x07
  | .ratchet => 0x08
  | .permute => 0x10
  | .ctxSave => 0x11
  | .ctxRestore => 0x12

/-- `enc(N op) = op` (R82, R93). -/
def encodeN (opc : Byte) : Word := opc.setWidth 32

/-- `enc(L op, len, c) = len << 16 | c << 8 | op` (R83, R93). -/
def encodeL (opc : Byte) (len : Nat) (cont : Bool) : Word :=
  (BitVec.ofNat 32 len <<< 16) ||| ((BitVec.ofBool cont).setWidth 32 <<< 8) ||| opc.setWidth 32

/-- `enc(K klen, idlen, clen) = clen << 24 | idlen << 16 | klen << 8 | op` (R84, R93). -/
def encodeK (opc : Byte) (klen idlen clen : Nat) : Word :=
  (BitVec.ofNat 32 clen <<< 24) ||| (BitVec.ofNat 32 idlen <<< 16) |||
    (BitVec.ofNat 32 klen <<< 8) ||| opc.setWidth 32

/-- The command word of a command (R93). -/
def encode (i : Instr) : Word :=
  match i with
  | .initHash => encodeN i.opcode
  | .initKeyed klen idlen clen => encodeK i.opcode klen idlen clen
  | .absorb len cont => encodeL i.opcode len cont
  | .squeeze len cont => encodeL i.opcode len cont
  | .squeezeKey len cont => encodeL i.opcode len cont
  | .encrypt len cont => encodeL i.opcode len cont
  | .decrypt len cont => encodeL i.opcode len cont
  | .ratchet => encodeN i.opcode
  | .permute => encodeN i.opcode
  | .ctxSave => encodeN i.opcode
  | .ctxRestore => encodeN i.opcode

end Sys2Proof
end

