-- ==== Sys2Proof/Machine/State.lean ====
section
/-! DEFINITION. The state of the XDY engine (10_state.md), the events that drive it, the reasons a step can stop, and the state after reset. -/

namespace Sys2Proof.Machine

/-- The 48 bytes `S[0] .. S[47]` (R20). -/
abbrev StateBytes := Vector Byte 48

/-- Forty-eight bytes of 0x00 (R39, R170). -/
def zeroBytes : StateBytes := Vector.replicate 48 0

/-- MODE (R22). -/
inductive Mode
  | hash
  | keyed
deriving DecidableEq, Repr

/-- PHASE (R23). -/
inductive Phase
  | up
  | down
deriving DecidableEq, Repr

/-- CTL, the controller state (R26). -/
inductive Ctl
  | idle
  | run
  | fault
deriving DecidableEq, Repr

/-- The cause of a fault (R241). Codes 8 to 15 are never raised, so they have no constructor. -/
inductive Cause
  | none
  | illegalCmd
  | modeViolation
  | keyLength
  | cmdWhileBusy
  | dinUnexpected
  | doutEmpty
  | ctxInvalid
deriving DecidableEq, Repr

/-- The duplex session: S, MODE and PHASE; the rates follow from MODE (R20 to R24). -/
structure Session where
  S : StateBytes
  mode : Mode
  phase : Phase
deriving DecidableEq, Repr

/-- The session reset gives: the Hash construction (R39, R281). -/
def Session.reset : Session := { S := zeroBytes, mode := .hash, phase := .up }

/-- The RUN record (R27). `dinHeld` and `outRest` are the model's own: how the bytes stand in the
buffers of `DIN_DEPTH` and `DOUT_DEPTH` bytes (R62, R63; logs 5 and 6). -/
structure RunRecord where
  cur : Word
  inNeed : Nat
  inBuf : List Byte
  executed : Bool
  outBuf : List Byte
  outLeft : Nat
  dinHeld : Nat
  outRest : List Byte
deriving DecidableEq, Repr

/-- The empty RUN record (R39). CUR = 0 is a DESIGN CHOICE (log 9). -/
def RunRecord.empty : RunRecord :=
  { cur := 0, inNeed := 0, inBuf := [], executed := false, outBuf := [], outLeft := 0,
    dinHeld := 0, outRest := [] }

/-- One event, in the order the engine receives them (R52, R68; log 2). Addresses are bus addresses;
the window starts at `BASE` (R50). -/
inductive HostEvent
  /-- A 32-bit read; a narrower read is performed as one (R53). -/
  | read (addr : Nat)
  /-- A full 32-bit write. -/
  | write (addr : Nat) (v : Word)
  /-- A write narrower than 32 bits: bit k of `driven` says the platform drives data lane k (R53). -/
  | writeLanes (addr : Nat) (v : Word) (driven : BitVec 4)
  /-- The hardware reset input (R280), or loss of power (R262). -/
  | reset
  /-- An engine step with no host access (R62, R63). -/
  | engine
deriving DecidableEq, Repr

/-- The machine: the parameters, the engine's state (R20 to R28), and the model's own fields for the
host side. -/
structure State where
  /-- The implementation parameters of R9; no step changes them (log 1). -/
  params : Params
  /-- S, MODE, PHASE (R20, R22, R23). -/
  session : Session
  /-- CTL (R26). -/
  ctl : Ctl
  /-- The RUN record (R27). -/
  run : RunRecord
  /-- CAUSE (R28). -/
  cause : Cause
  /-- FAULT_INFO (R28). -/
  faultInfo : Word
  /-- The events to come, oldest first (log 2). -/
  pending : List HostEvent
  /-- What the host's reads have returned, oldest first (log 2). -/
  replies : List Word
  /-- The index of the next free value (log 7). -/
  fresh : Nat
deriving DecidableEq, Repr

/-- Why a step stops with a fault. (The engine's own FAULT state is a next state, not one of these.) -/
inductive Fault
  /-- Raised by `event` for an access whose address is outside the 256-byte window at `BASE`: it is
  no access of this engine (R50; log 10). Safe: the hardware goes on, the model stops. -/
  | outsideWindow (addr : Nat)
deriving DecidableEq, Repr

/-- Why a step is refused. -/
inductive Refusal
  /-- Answered by `exec` for a command that has no meaning yet; no arm does. Safe. -/
  | notModelled (mnemonic : String)
  /-- Answered by `resume` when CTL = RUN and CUR is no command: no run reaches such a state
  (R57 sets CUR to an accepted word; log 11). Safe. -/
  | curIsNoCommand (w : Word)
deriving DecidableEq, Repr

/-- The machine right after reset: R39 for the engine's state, `Params.reference` for the parameters
(log 1), no event pending. -/
def State.reset : State :=
  { params := Params.reference, session := Session.reset, ctl := .idle, run := RunRecord.empty,
    cause := .none, faultInfo := 0, pending := [], replies := [], fresh := 0 }

end Sys2Proof.Machine
end

