-- ==== Sys2Proof/Machine/Operands.lean ====
section
/-! DEFINITION. Operand forms: byte and word conversion (R11, R12), the registers of the window (R51), lengths and rates (R24, R92), the split of an input into blocks (R145), the parts of an INIT_KEYED input (R190). -/

namespace Sys2Proof.Machine

/-- `rotl(a, n)` for `0 <= n < 32` (R11). -/
def rotl (a : Lane) (n : Nat) : Lane := (a <<< n) ||| (a >>> (32 - n))

/-- `le32(b0, b1, b2, b3) = b0 + 2^8*b1 + 2^16*b2 + 2^24*b3` (R12); the four bytes do not overlap. -/
def le32 (b0 b1 b2 b3 : Byte) : Lane :=
  b0.setWidth 32 ||| (b1.setWidth 32 <<< 8) ||| (b2.setWidth 32 <<< 16) ||| (b3.setWidth 32 <<< 24)

/-- `bytes_le32(w)` (R12). -/
def bytesLe32 (w : Lane) : List Byte :=
  [w.extractLsb' 0 8, w.extractLsb' 8 8, w.extractLsb' 16 8, w.extractLsb' 24 8]

/-- `zext_32` of a byte (R12). -/
def zext32 (b : Byte) : Word := b.setWidth 32

/-- `S[i]` (R13). No rule reads an index above 47. -/
def byteAt (S : StateBytes) (i : Nat) : Byte := S[i]?.getD 0

/-- `S[i] <- S[i] xor v` (R13). No rule writes an index above 47 (R150; log 14). -/
def xorAt (S : StateBytes) (i : Nat) (v : Byte) : StateBytes :=
  S.setIfInBounds i (byteAt S i ^^^ v)

/-- `for k in 0 .. |X|-1: S[i+k] <- S[i+k] xor X[k]` (R140). -/
def xorBlock (S : StateBytes) (i : Nat) : List Byte → StateBytes
  | [] => S
  | x :: xs => xorBlock (xorAt S i x) (i + 1) xs

/-- `Q <- blk xor K`, bytewise (R148). -/
def xorBytes (X Y : List Byte) : List Byte := List.zipWith (· ^^^ ·) X Y

/-- `absorbRate(MODE)` (R24). -/
def absorbRate : Mode → Nat
  | .hash => 16
  | .keyed => 44

/-- `squeezeRate(MODE)` (R24). -/
def squeezeRate : Mode → Nat
  | .hash => 16
  | .keyed => 24

/-- The absorb rate of Keyed mode: the rate of the key buffer and of the ratchet (R190, R199). -/
def keyedAbsorbRate : Nat := 44

/-- The block size of Crypt (R148). -/
def cryptRate : Nat := 24

/-- `COUNTER_RATE` (R24). -/
def counterRate : Nat := 1

/-- `RATCHET_LEN` (R24). -/
def ratchetLen : Nat := 16

/-- The length of a context image (R221). -/
def contextImageLen : Nat := 49

/-- `Split(X, r)` (R145): block k is `X[k*r .. min((k+1)*r, |X|))`, and there are
`max(1, ceil(|X| / r))` of them. -/
def split (X : List Byte) (r : Nat) : List (List Byte) :=
  (List.range (max 1 ((X.length + r - 1) / r))).map fun k => (X.drop (k * r)).take r

/-- InLen of a command (R92). -/
def inLen : Instr → Nat
  | .initHash => 0
  | .initKeyed klen idlen clen => klen + idlen + clen
  | .absorb len _ => len
  | .squeeze _ _ => 0
  | .squeezeKey _ _ => 0
  | .encrypt len _ => len
  | .decrypt len _ => len
  | .ratchet => 0
  | .permute => 0
  | .ctxSave => 0
  | .ctxRestore => contextImageLen

/-- OutLen of a command (R92). -/
def outLen : Instr → Nat
  | .initHash => 0
  | .initKeyed _ _ _ => 0
  | .absorb _ _ => 0
  | .squeeze len _ => len
  | .squeezeKey len _ => len
  | .encrypt len _ => len
  | .decrypt len _ => len
  | .ratchet => 0
  | .permute => 0
  | .ctxSave => contextImageLen
  | .ctxRestore => 0

/-- The precondition of INIT_KEYED: a non-empty key, and `KLEN + IDLEN + 1 <= 44` (R190). -/
def keyLengthOk (klen idlen : Nat) : Bool := klen ≠ 0 && klen + idlen + 1 ≤ keyedAbsorbRate

/-- The key buffer `key ‖ id ‖ [IDLEN]` of the input (R190). -/
def keyBuffer (klen idlen : Nat) (I : List Byte) : List Byte :=
  I.take klen ++ (I.drop klen).take idlen ++ [BitVec.ofNat 8 idlen]

/-- The counter, `I[KLEN+IDLEN .. InLen)` (R190). -/
def counterBytes (klen idlen : Nat) (I : List Byte) : List Byte := I.drop (klen + idlen)

/-- The registers of the window (R51). -/
inductive Reg
  | id
  | status
  | ctrl
  | cmd
  | din
  | dout
  | faultInfo
  | reserved
deriving DecidableEq, Repr

/-- The register at an offset: bits [7:2] select, bits [1:0] are ignored (R50, R51, R52). -/
def regOf (off : BitVec 8) : Reg :=
  match (off.extractLsb' 2 6).toNat with
  | 0 => .id
  | 1 => .status
  | 2 => .ctrl
  | 3 => .cmd
  | 4 => .din
  | 5 => .dout
  | 6 => .faultInfo
  | _ => .reserved

/-- The offset of a bus address in the window at `BASE` (R50); none outside the window. -/
def windowOffset (p : Params) (addr : Nat) : Option (BitVec 8) :=
  if p.base ≤ addr ∧ addr < p.base + 256 then some (BitVec.ofNat 8 (addr - p.base)) else none

/-- Offset of CMD (R51). -/
def cmdOffset : Nat := 0x0C

/-- Offset of DIN (R51). -/
def dinOffset : Nat := 0x10

/-- Offset of DOUT (R51). -/
def doutOffset : Nat := 0x14

/-- The value a narrow write delivers: a driven lane carries the host's byte, an undriven lane the
free byte of the platform (R53, I14; log 8). -/
def fillLanes (v : Word) (driven : BitVec 4) (fresh : Nat) : Word :=
  let lane (k : Nat) : Byte :=
    if driven.getLsbD k then v.extractLsb' (8 * k) 8 else Config.freeLaneByte (fresh + k)
  le32 (lane 0) (lane 1) (lane 2) (lane 3)

end Sys2Proof.Machine
end

