-- ==== Sys2Proof/Machine/Flags.lean ====
section
/-! DEFINITION. The domain-separation flags and their masking (R95, R96), the encodings of MODE, PHASE and CAUSE (R22, R23, R241), and the STATUS register (R32). -/

namespace Sys2Proof.Machine

/-- The seven domain-separation flags (R95). -/
inductive Flag
  | zero
  | absorbKey
  | absorb
  | ratchet
  | squeezeKey
  | squeeze
  | crypt
deriving DecidableEq, Repr

/-- Flag values (R95). -/
def Flag.value : Flag → Byte
  | .zero => 0x00
  | .absorbKey => 0x02
  | .absorb => 0x03
  | .ratchet => 0x10
  | .squeezeKey => 0x20
  | .squeeze => 0x40
  | .crypt => 0x80

/-- What a Down XORs into `S[47]`: the full flag in Keyed mode, its low bit in Hash mode (R140, R96). -/
def Flag.inDown (f : Flag) : Mode → Byte
  | .keyed => f.value
  | .hash => f.value &&& 0x01

/-- MODE's encoding: Hash 0, Keyed 1 (R22). -/
def Mode.bit : Mode → BitVec 1
  | .hash => 0
  | .keyed => 1

/-- PHASE's encoding: Up 1, Down 0 (R23). -/
def Phase.bit : Phase → BitVec 1
  | .up => 1
  | .down => 0

/-- The cause codes (R241). -/
def Cause.code : Cause → BitVec 4
  | .none => 0
  | .illegalCmd => 1
  | .modeViolation => 2
  | .keyLength => 3
  | .cmdWhileBusy => 4
  | .dinUnexpected => 5
  | .doutEmpty => 6
  | .ctxInvalid => 7

/-- STATUS.BUSY (R32). -/
def State.busy (s : State) : Bool := s.ctl = .run

/-- STATUS.DIN_FREE: the command expects more input and the buffer of `DIN_DEPTH` bytes can take one
(R32, R62; log 5). -/
def State.dinFree (s : State) : Bool :=
  s.busy && decide (s.run.inBuf.length < s.run.inNeed) && decide (s.run.dinHeld < s.params.dinDepth)

/-- STATUS.DOUT_AVAIL: the command has executed, bytes are left, and the next one is in the output
buffer (R32, R63; log 6). -/
def State.doutAvail (s : State) : Bool :=
  s.busy && s.run.executed && decide (0 < s.run.outLeft) && !s.run.outBuf.isEmpty

/-- STATUS.FAULT (R32). -/
def State.faulted (s : State) : Bool := s.ctl = .fault

/-- STATUS.MODE: MODE in IDLE, 0 in FAULT, free while BUSY (R32, R41; log 7). -/
def State.statusMode (s : State) : BitVec 1 :=
  match s.ctl with
  | .idle => s.session.mode.bit
  | .run => Config.freeStatusBit s.fresh
  | .fault => 0

/-- STATUS.PHASE: PHASE in IDLE, 0 in FAULT, free while BUSY, read independently of MODE (R32, R41,
I1; log 7). -/
def State.statusPhase (s : State) : BitVec 1 :=
  match s.ctl with
  | .idle => s.session.phase.bit
  | .run => Config.freeStatusBit (s.fresh + 1)
  | .fault => 0

/-- The STATUS register, field by field (R32); the reserved bits are 0. -/
def State.status (s : State) : Word :=
  (BitVec.ofBool s.busy).setWidth 32 |||
  ((BitVec.ofBool s.dinFree).setWidth 32 <<< 1) |||
  ((BitVec.ofBool s.doutAvail).setWidth 32 <<< 2) |||
  ((BitVec.ofBool s.faulted).setWidth 32 <<< 3) |||
  (s.cause.code.setWidth 32 <<< 8) |||
  (s.statusMode.setWidth 32 <<< 16) |||
  (s.statusPhase.setWidth 32 <<< 17)

/-- The context byte `MODE | PHASE << 1` (R220, R221). -/
def contextByte (m : Mode) (p : Phase) : Byte := m.bit.setWidth 8 ||| (p.bit.setWidth 8 <<< 1)

end Sys2Proof.Machine
end

