-- ==== Sys2Proof/Machine/Ops.lean ====
section
/-! DEFINITION. The named operations over the controller: fault entry and its exit (R250, R253, R280), acceptance, execution and completion of a command (R57, R64, R65), the buffers' engine side (R62, R63), the host's replies. -/

namespace Sys2Proof.Machine

/-- What a command's transaction gives (R17, R64): the new session and the output, or the fault it
raises, with nothing applied. -/
inductive TxnResult
  | done (d : Session) (O : List Byte)
  | fault (c : Cause) (info : Word)
deriving DecidableEq, Repr

/-- FAULT ENTRY, `raise Fault(cause, info)` (R250): CTL, CAUSE and FAULT_INFO are written and the RUN
record is cleared; S, MODE and PHASE are not written. -/
def State.raise (s : State) (c : Cause) (info : Word) : State :=
  { s with ctl := .fault, cause := c, faultInfo := info, run := RunRecord.empty }

/-- THE ONLY EXIT FROM FAULT (R253), and reset from any state (R245, R280): every piece of the
engine's state takes its reset value of R39. The parameters, the events to come, the replies given
and the free-value counter are not the engine's. -/
def State.engineReset (s : State) : State :=
  { s with session := Session.reset, ctl := .idle, run := RunRecord.empty, cause := .none,
           faultInfo := 0 }

/-- A read returns `v` to the host (R52). -/
def State.reply (s : State) (v : Word) : State := { s with replies := s.replies ++ [v] }

/-- Acceptance of a command (R57): CTL <- RUN and a new RUN record. CUR is the command's word, which
is the word written, since no two words decode to one command (log 12). -/
def State.accept (s : State) (i : Instr) : State :=
  { s with ctl := .run,
           run := { RunRecord.empty with cur := encode i, inNeed := inLen i, outLeft := outLen i } }

/-- All input bytes of the command have been received (R58, R64). -/
abbrev State.inputComplete (s : State) : Prop := s.run.inBuf.length = s.run.inNeed

/-- CompleteIfDone (R65). -/
def State.completeIfDone (s : State) : State :=
  if s.ctl = .run ∧ s.run.executed = true ∧ s.run.outLeft = 0 then
    { s with ctl := .idle, run := RunRecord.empty }
  else s

/-- Execute (R64), when the input is complete and the command has not executed: the transaction is
applied and its output goes to OUT_BUF, as far as `DOUT_DEPTH` bytes hold it (R63; log 6); a
transaction that faults raises its fault and applies nothing. Then CompleteIfDone. -/
def State.execute (s : State) (txn : Session → List Byte → TxnResult) : State :=
  if s.inputComplete ∧ s.run.executed = false then
    match txn s.session s.run.inBuf with
    | .fault c info => s.raise c info
    | .done d O =>
      State.completeIfDone
        { s with session := d,
                 run := { s.run with executed := true, outBuf := O.take s.params.doutDepth,
                                     outRest := O.drop s.params.doutDepth } }
  else s

/-- What every command does with the controller. In IDLE its word is presented (R57): the check that
fails raises its fault; otherwise the command is accepted, and it executes at once if it takes no
input and the engine has no latency (R64; log 4). In RUN the command in progress executes once its
input is complete (R58, R64). In FAULT nothing happens (R252). `violation` is the cause of the first
check of R57 that the presented word fails. (What applying a command to a state means in each
controller state is log 15.) -/
def runCommand (i : Instr) (violation : Option Cause) (txn : Session → List Byte → TxnResult)
    (s : State) : Host.Outcome State Fault Refusal :=
  match s.ctl with
  | .fault => .next s
  | .run => .next (s.execute txn)
  | .idle =>
    match violation with
    | some c => .next (s.raise c (encode i))
    | none =>
      if s.params.permLatency = 0 then .next ((s.accept i).execute txn) else .next (s.accept i)

/-- The mode check of SQUEEZE_KEY, ENCRYPT, DECRYPT and RATCHET (R57, R241 cause 2). -/
def keyedOnly (s : State) : Option Cause :=
  match s.session.mode with
  | .keyed => none
  | .hash => some .modeViolation

/-- The key-length check of INIT_KEYED (R57, R190, R241 cause 3). -/
def keyLengthCheck (klen idlen : Nat) : Option Cause :=
  if keyLengthOk klen idlen then none else some .keyLength

/-- PERMUTE, CTX_SAVE and CTX_RESTORE are illegal without the context port (R88 (c), R89).
The decoder refuses them before this check is reached (log 16). -/
def contextPortCheck (s : State) : Option Cause :=
  match s.params.ctxPort with
  | .present => none
  | .absent => some .illegalCmd

/-- The engine takes every byte out of the input buffer (R62; log 5). -/
def State.drainIn (s : State) : State := { s with run := { s.run with dinHeld := 0 } }

/-- The engine fills the output buffer up to `DOUT_DEPTH` bytes (R63; log 6). -/
def State.refillOut (s : State) : State :=
  let room := s.params.doutDepth - s.run.outBuf.length
  { s with run := { s.run with outBuf := s.run.outBuf ++ s.run.outRest.take room,
                               outRest := s.run.outRest.drop room } }

/-- A byte written to DIN joins IN_BUF (R58). -/
def State.takeIn (s : State) (b : Byte) : State :=
  { s with run := { s.run with inBuf := s.run.inBuf ++ [b], dinHeld := s.run.dinHeld + 1 } }

end Sys2Proof.Machine
end

