-- ==== Sys2Proof/Machine/Permutation.lean ====
section
/-! DEFINITION. The permutation engine (R110 to R125) and the PERMUTE command. -/

namespace Sys2Proof.Machine

/-- A plane: four lanes (R21). -/
abbrev Plane := Vector Lane 4

/-- A plane from its lanes, `for j in 0..3`. Lane indices are `Fin 4`, so `j - 1` is
`(j - 1) mod 4`. -/
def Plane.tab (f : Fin 4 → Lane) : Plane := #v[f 0, f 1, f 2, f 3]

/-- The three planes (R21). -/
structure Planes where
  A : Plane
  B : Plane
  C : Plane
deriving DecidableEq, Repr

/-- Lane `j` of the plane that starts at byte `base` of S, little-endian (R21). -/
def laneAt (S : StateBytes) (base : Nat) (j : Fin 4) : Lane :=
  le32 (byteAt S (base + 4 * j)) (byteAt S (base + 4 * j + 1)) (byteAt S (base + 4 * j + 2))
    (byteAt S (base + 4 * j + 3))

/-- The planes of S: A is bytes 0..15, B 16..31, C 32..47 (R21). -/
def planesOf (S : StateBytes) : Planes :=
  { A := Plane.tab (laneAt S 0), B := Plane.tab (laneAt S 16), C := Plane.tab (laneAt S 32) }

/-- The 16 bytes of a plane (R21). -/
def planeBytes (p : Plane) : List Byte :=
  bytesLe32 p[0] ++ bytesLe32 p[1] ++ bytesLe32 p[2] ++ bytesLe32 p[3]

/-- The 48 bytes of (A, B, C) (R21, R120). -/
def bytesOf (p : Planes) : StateBytes :=
  ⟨⟨planeBytes p.A ++ planeBytes p.B ++ planeBytes p.C⟩, by simp [planeBytes, bytesLe32]⟩

/-- θ (R112). -/
def theta (p : Planes) : Planes :=
  let P := Plane.tab fun j => p.A[j] ^^^ p.B[j] ^^^ p.C[j]
  let P' := Plane.tab fun j => P[j - 1]
  let E := Plane.tab fun j => rotl P'[j] 5 ^^^ rotl P'[j] 14
  { A := Plane.tab fun j => p.A[j] ^^^ E[j]
    B := Plane.tab fun j => p.B[j] ^^^ E[j]
    C := Plane.tab fun j => p.C[j] ^^^ E[j] }

/-- ρ-west (R113). -/
def rhoWest (p : Planes) : Planes :=
  { A := p.A, B := Plane.tab fun j => p.B[j - 1], C := Plane.tab fun j => rotl p.C[j] 11 }

/-- ι (R114). -/
def iota (rc : Lane) (p : Planes) : Planes :=
  { A := #v[p.A[0] ^^^ rc, p.A[1], p.A[2], p.A[3]], B := p.B, C := p.C }

/-- The first update of χ, of plane A (R115). -/
def chiA (p : Planes) : Planes :=
  { A := Plane.tab fun j => p.A[j] ^^^ (~~~p.B[j] &&& p.C[j]), B := p.B, C := p.C }

/-- The second update of χ, of plane B (R115). -/
def chiB (p : Planes) : Planes :=
  { A := p.A, B := Plane.tab fun j => p.B[j] ^^^ (~~~p.C[j] &&& p.A[j]), C := p.C }

/-- The third update of χ, of plane C (R115). -/
def chiC (p : Planes) : Planes :=
  { A := p.A, B := p.B, C := Plane.tab fun j => p.C[j] ^^^ (~~~p.A[j] &&& p.B[j]) }

/-- χ, sequential, in the order of R115: A, then B with the new A, then C with both. -/
def chi (p : Planes) : Planes := chiC (chiB (chiA p))

/-- χ in its parallel form (R116); `chi` is the reference. -/
def chiParallel (p : Planes) : Planes :=
  { A := Plane.tab fun j => p.A[j] ^^^ (~~~p.B[j] &&& p.C[j])
    B := Plane.tab fun j => p.B[j] ^^^ (~~~p.C[j] &&& p.A[j])
    C := Plane.tab fun j => p.C[j] ^^^ (~~~p.A[j] &&& p.B[j]) }

/-- ρ-east (R117). -/
def rhoEast (p : Planes) : Planes :=
  { A := p.A, B := Plane.tab fun j => rotl p.B[j] 1, C := Plane.tab fun j => rotl p.C[j - 2] 8 }

/-- The byte table `T` of ρ-east on plane C (R118). -/
def rhoEastTable : List Nat := [11, 8, 9, 10, 15, 12, 13, 14, 3, 0, 1, 2, 7, 4, 5, 6]

/-- The round constants `RC[0] .. RC[11]` (R111). -/
def roundConstants : List Lane :=
  [0x058, 0x038, 0x3C0, 0x0D0, 0x120, 0x014, 0x060, 0x02C, 0x380, 0x0F0, 0x1A0, 0x012]

/-- One round (R120): θ, ρ-west, ι, χ, ρ-east. -/
def permRound (p : Planes) (rc : Lane) : Planes := rhoEast (chi (iota rc (rhoWest (theta p))))

/-- The twelve rounds, in order (R120). -/
def permutePlanes (p : Planes) : Planes := roundConstants.foldl permRound p

/-- `Permute(S)` (R120). -/
def permute (S : StateBytes) : StateBytes := bytesOf (permutePlanes (planesOf S))

/-- `Permute` applied `n` times (R122). -/
def permuteTimes : Nat → StateBytes → StateBytes
  | 0, S => S
  | n + 1, S => permuteTimes n (permute S)

/-- The transaction of PERMUTE (R125): S is permuted, MODE and PHASE are unchanged. -/
def txnPermute (d : Session) (_I : List Byte) : TxnResult := .done { d with S := permute d.S } []

/-- PERMUTE (R125). -/
def execPermute (s : State) : Host.Outcome State Fault Refusal :=
  runCommand .permute (contextPortCheck s) txnPermute s

end Sys2Proof.Machine
end

