-- ==== Sys2Proof/Machine/Duplex.lean ====
section
/-! DEFINITION. The duplex controller's primitives: Down, Up, AbsorbAny, SqueezeAny, SqueezeCont, Crypt (R140 to R148). -/

namespace Sys2Proof.Machine

/-- `Down(X, Cd)` (R140); with the empty block it XORs the padding into `S[0]` (R141). -/
def Session.down (d : Session) (X : List Byte) (cd : Flag) : Session :=
  { S := xorAt (xorAt (xorBlock d.S 0 X) X.length 0x01) 47 (cd.inDown d.mode)
    mode := d.mode
    phase := .down }

/-- `Up(Cu, ·)` (R142): in Keyed mode the flag is XORed into `S[47]` before the permutation; in Hash
mode no flag is injected. -/
def Session.up (d : Session) (cu : Flag) : Session :=
  { S := permute (match d.mode with
                  | .keyed => xorAt d.S 47 cu.value
                  | .hash => d.S)
    mode := d.mode
    phase := .up }

/-- `S[0 .. n)`: the bytes an Up returns (R142). -/
def Session.out (d : Session) (n : Nat) : List Byte := d.S.toList.take n

/-- The loop of AbsorbAny over the blocks (R144): an Up(Zero) before every block that does not find
PHASE = Up, and the flag `Cd` only in the first Down. -/
def absorbBlocks (d : Session) (cd : Flag) : List (List Byte) → Session
  | [] => d
  | blk :: rest =>
    absorbBlocks ((match d.phase with
                   | .up => d
                   | .down => d.up .zero).down blk cd) .zero rest

/-- `AbsorbAny(X, r, Cd)` (R144). -/
def absorbAny (d : Session) (X : List Byte) (r : Nat) (cd : Flag) : Session :=
  absorbBlocks d cd (split X r)

/-- The loop of SqueezeAny and SqueezeCont (R146, R147) with `need` bytes still to give. Each turn
gives at least one byte, so `need` turns are enough fuel. -/
def squeezeLoop : Nat → Session → Nat → Session × List Byte
  | 0, d, _ => (d, [])
  | fuel + 1, d, need =>
    if need = 0 then (d, [])
    else
      let n := min need (squeezeRate d.mode)
      let d1 := (d.down [] .zero).up .zero
      let r := squeezeLoop fuel d1 (need - n)
      (r.1, d1.out n ++ r.2)

/-- `SqueezeCont(n)` (R147). -/
def squeezeCont (d : Session) (n : Nat) : Session × List Byte := squeezeLoop n d n

/-- `SqueezeAny(n, Cu)` (R146). -/
def squeezeAny (d : Session) (n : Nat) (cu : Flag) : Session × List Byte :=
  let n0 := min n (squeezeRate d.mode)
  let d1 := d.up cu
  let r := squeezeCont d1 (n - n0)
  (r.1, d1.out n0 ++ r.2)

/-- The direction of Crypt (R148). -/
inductive Direction
  | encrypt
  | decrypt
deriving DecidableEq, Repr

/-- The plaintext block: the input when encrypting, the output when decrypting (R148, R196). -/
def plaintextBlock (dir : Direction) (blk Q : List Byte) : List Byte :=
  match dir with
  | .encrypt => blk
  | .decrypt => Q

/-- The block loop of Crypt (R148): Up, keystream, output block, Down of the plaintext block. -/
def cryptBlocks (dir : Direction) : Session → Flag → List (List Byte) → Session × List Byte
  | d, _, [] => (d, [])
  | d, cu, blk :: rest =>
    let d1 := d.up cu
    let Q := xorBytes blk (d1.out blk.length)
    let r := cryptBlocks dir (d1.down (plaintextBlock dir blk Q) .zero) .zero rest
    (r.1, Q ++ r.2)

/-- `Crypt(I, dec, Cu)` (R148). -/
def crypt (d : Session) (I : List Byte) (dir : Direction) (cu : Flag) : Session × List Byte :=
  cryptBlocks dir d cu (split I cryptRate)

end Sys2Proof.Machine
end

