-- ==== Sys2Proof/Machine/ContextCommands.lean ====
section
/-! DEFINITION. The context commands: CTX_SAVE, CTX_RESTORE (44_context_commands.md). -/

namespace Sys2Proof.Machine

/-- The context image of a session (R221): S in index order, then the context byte. -/
def contextImage (d : Session) : List Byte := d.S.toList ++ [contextByte d.mode d.phase]

/-- The transaction of CTX_SAVE (R220): the session is not changed. -/
def txnCtxSave (d : Session) (_I : List Byte) : TxnResult := .done d (contextImage d)

/-- CTX_SAVE (R220). -/
def execCtxSave (s : State) : Host.Outcome State Fault Refusal :=
  runCommand .ctxSave (contextPortCheck s) txnCtxSave s

/-- The context byte of an image, `I[48]` (R222). -/
def imageContextByte (I : List Byte) : Byte := I[48]?.getD 0

/-- The 48 state bytes of an image, `S[i] <- I[i]` (R222). -/
def imageBytes (I : List Byte) : StateBytes :=
  ⟨⟨(List.range 48).map fun i => I[i]?.getD 0⟩, by simp⟩

/-- The transaction of CTX_RESTORE (R222). -/
def txnCtxRestore (_d : Session) (I : List Byte) : TxnResult :=
  let c := imageContextByte I
  if c.extractLsb' 2 6 ≠ 0 then .fault .ctxInvalid (zext32 c)
  else
    .done { S := imageBytes I
            mode := if c.getLsbD 0 then .keyed else .hash
            phase := if c.getLsbD 1 then .up else .down } []

/-- CTX_RESTORE (R222). -/
def execCtxRestore (s : State) : Host.Outcome State Fault Refusal :=
  runCommand .ctxRestore (contextPortCheck s) txnCtxRestore s

end Sys2Proof.Machine
end

