-- ==== Sys2Proof/Machine/KeyedCommands.lean ====
section
/-! DEFINITION. The keyed-mode commands: INIT_KEYED, SQUEEZE_KEY, ENCRYPT, DECRYPT, RATCHET (43_keyed_commands.md). -/

namespace Sys2Proof.Machine

/-- The transaction of INIT_KEYED (R190): a fresh keyed session absorbs `key ‖ id ‖ [IDLEN]` at rate
44 with flag AbsorbKey, then a non-empty counter at rate 1 with flag Zero. -/
def txnInitKeyed (klen idlen clen : Nat) (_d : Session) (I : List Byte) : TxnResult :=
  let d0 : Session := { S := zeroBytes, mode := .keyed, phase := .up }
  let d1 := absorbAny d0 (keyBuffer klen idlen I) keyedAbsorbRate .absorbKey
  let d2 := if 0 < clen then absorbAny d1 (counterBytes klen idlen I) counterRate .zero else d1
  .done d2 []

/-- INIT_KEYED (R190): legal in either mode; KEY_LENGTH is checked from the word. -/
def execInitKeyed (klen idlen clen : Nat) (s : State) : Host.Outcome State Fault Refusal :=
  runCommand (.initKeyed klen idlen clen) (keyLengthCheck klen idlen) (txnInitKeyed klen idlen clen) s

/-- The transaction of SQUEEZE_KEY (R193). -/
def txnSqueezeKey (len : Nat) (cont : Bool) (d : Session) (_I : List Byte) : TxnResult :=
  let r := if cont then squeezeCont d len else squeezeAny d len .squeezeKey
  .done r.1 r.2

/-- SQUEEZE_KEY (R193): keyed only. -/
def execSqueezeKey (len : Nat) (cont : Bool) (s : State) : Host.Outcome State Fault Refusal :=
  runCommand (.squeezeKey len cont) (keyedOnly s) (txnSqueezeKey len cont) s

/-- The transaction of ENCRYPT (R195). -/
def txnEncrypt (cont : Bool) (d : Session) (I : List Byte) : TxnResult :=
  let r := crypt d I .encrypt (if cont then .zero else .crypt)
  .done r.1 r.2

/-- ENCRYPT (R195): keyed only. -/
def execEncrypt (len : Nat) (cont : Bool) (s : State) : Host.Outcome State Fault Refusal :=
  runCommand (.encrypt len cont) (keyedOnly s) (txnEncrypt cont) s

/-- The transaction of DECRYPT (R197). -/
def txnDecrypt (cont : Bool) (d : Session) (I : List Byte) : TxnResult :=
  let r := crypt d I .decrypt (if cont then .zero else .crypt)
  .done r.1 r.2

/-- DECRYPT (R197): keyed only. -/
def execDecrypt (len : Nat) (cont : Bool) (s : State) : Host.Outcome State Fault Refusal :=
  runCommand (.decrypt len cont) (keyedOnly s) (txnDecrypt cont) s

/-- The transaction of RATCHET (R199): nothing is output. -/
def txnRatchet (d : Session) (_I : List Byte) : TxnResult :=
  let r := squeezeAny d ratchetLen .ratchet
  .done (absorbAny r.1 r.2 keyedAbsorbRate .zero) []

/-- RATCHET (R199): keyed only. -/
def execRatchet (s : State) : Host.Outcome State Fault Refusal :=
  runCommand .ratchet (keyedOnly s) txnRatchet s

end Sys2Proof.Machine
end

