-- ==== Sys2Proof/Machine/SessionCommands.lean ====
section
/-! DEFINITION. The session commands of both modes: INIT_HASH, ABSORB, SQUEEZE (42_session_commands.md). -/

namespace Sys2Proof.Machine

/-- The transaction of INIT_HASH (R170). -/
def txnInitHash (_d : Session) (_I : List Byte) : TxnResult :=
  .done { S := zeroBytes, mode := .hash, phase := .up } []

/-- INIT_HASH (R170): legal in either mode. -/
def execInitHash (s : State) : Host.Outcome State Fault Refusal :=
  runCommand .initHash none txnInitHash s

/-- The transaction of ABSORB (R172): the Absorb flag for a new operation, Zero for a continuation. -/
def txnAbsorb (cont : Bool) (d : Session) (I : List Byte) : TxnResult :=
  .done (absorbAny d I (absorbRate d.mode) (if cont then .zero else .absorb)) []

/-- ABSORB (R172): legal in either mode. -/
def execAbsorb (len : Nat) (cont : Bool) (s : State) : Host.Outcome State Fault Refusal :=
  runCommand (.absorb len cont) none (txnAbsorb cont) s

/-- The transaction of SQUEEZE (R174). -/
def txnSqueeze (len : Nat) (cont : Bool) (d : Session) (_I : List Byte) : TxnResult :=
  let r := if cont then squeezeCont d len else squeezeAny d len .squeeze
  .done r.1 r.2

/-- SQUEEZE (R174): legal in either mode. -/
def execSqueeze (len : Nat) (cont : Bool) (s : State) : Host.Outcome State Fault Refusal :=
  runCommand (.squeeze len cont) none (txnSqueeze len cont) s

end Sys2Proof.Machine
end

