-- ==== Sys2Proof/Machine/Transactions.lean ====
section
/-! DEFINITION. The transaction level (R17): for each command, the checks of R57 its word meets, and (session, input bytes) to (new session, output bytes). `exec` does not read this file; statements about all commands do. -/

namespace Sys2Proof.Machine

/-- The transaction of a command (R17, R64). -/
def transaction : Instr → Session → List Byte → TxnResult
  | .initHash => txnInitHash
  | .initKeyed klen idlen clen => txnInitKeyed klen idlen clen
  | .absorb _ cont => txnAbsorb cont
  | .squeeze len cont => txnSqueeze len cont
  | .squeezeKey len cont => txnSqueezeKey len cont
  | .encrypt _ cont => txnEncrypt cont
  | .decrypt _ cont => txnDecrypt cont
  | .ratchet => txnRatchet
  | .permute => txnPermute
  | .ctxSave => txnCtxSave
  | .ctxRestore => txnCtxRestore

/-- The commands R57 allows in Keyed mode only. -/
def needsKeyed : Instr → Bool
  | .initHash => false
  | .initKeyed _ _ _ => false
  | .absorb _ _ => false
  | .squeeze _ _ => false
  | .squeezeKey _ _ => true
  | .encrypt _ _ => true
  | .decrypt _ _ => true
  | .ratchet => true
  | .permute => false
  | .ctxSave => false
  | .ctxRestore => false

/-- The commands of the context port (R89). -/
def needsCtxPort : Instr → Bool
  | .initHash => false
  | .initKeyed _ _ _ => false
  | .absorb _ _ => false
  | .squeeze _ _ => false
  | .squeezeKey _ _ => false
  | .encrypt _ _ => false
  | .decrypt _ _ => false
  | .ratchet => false
  | .permute => true
  | .ctxSave => true
  | .ctxRestore => true

/-- The key-length condition R57 puts on a command: only INIT_KEYED has one (R190). -/
def keyFits : Instr → Bool
  | .initHash => true
  | .initKeyed klen idlen _ => keyLengthOk klen idlen
  | .absorb _ _ => true
  | .squeeze _ _ => true
  | .squeezeKey _ _ => true
  | .encrypt _ _ => true
  | .decrypt _ _ => true
  | .ratchet => true
  | .permute => true
  | .ctxSave => true
  | .ctxRestore => true

/-- The first check of R57 that a presented command fails, if any. -/
def violation (port : CtxPort) (m : Mode) (i : Instr) : Option Cause :=
  if needsCtxPort i && port = .absent then some .illegalCmd
  else if needsKeyed i && m = .hash then some .modeViolation
  else if keyFits i then none
  else some .keyLength

/-- A command that passes every check of R57 in mode `m`. -/
def admitted (port : CtxPort) (m : Mode) (i : Instr) : Bool :=
  (!needsCtxPort i || port = .present) && (!needsKeyed i || m = .keyed) && keyFits i

end Sys2Proof.Machine
end

