-- ==== Sys2Proof/Machine/Dispatch.lean ====
section
/-! DEFINITION. One arm per command: the meaning of each row of spec/opcode_table.json. -/

namespace Sys2Proof.Machine

def exec (i : Instr) (s : State) : Host.Outcome State Fault Refusal :=
  match i with
  | .initHash => Sys2Proof.Machine.execInitHash s
  | .initKeyed klen idlen clen => Sys2Proof.Machine.execInitKeyed klen idlen clen s
  | .absorb len cont => Sys2Proof.Machine.execAbsorb len cont s
  | .squeeze len cont => Sys2Proof.Machine.execSqueeze len cont s
  | .squeezeKey len cont => Sys2Proof.Machine.execSqueezeKey len cont s
  | .encrypt len cont => Sys2Proof.Machine.execEncrypt len cont s
  | .decrypt len cont => Sys2Proof.Machine.execDecrypt len cont s
  | .ratchet => Sys2Proof.Machine.execRatchet s
  | .permute => Sys2Proof.Machine.execPermute s
  | .ctxSave => Sys2Proof.Machine.execCtxSave s
  | .ctxRestore => Sys2Proof.Machine.execCtxRestore s

end Sys2Proof.Machine
end

