-- ==== Sys2Proof/Machine/Registers.lean ====
section
/-! DEFINITION. The register window: what each read and write does (R51 to R59), the engine's own step (R62, R63), and one event of the schedule. -/

namespace Sys2Proof.Machine

/-- The value of ID (R31). -/
def idValue : Word := 0x58445901

/-- The command in progress executes (R64): CUR is decoded and its meaning applied. CUR is a command
in every state a run reaches; another CUR is refused by name (log 11). -/
def resume (s : State) : Host.Outcome State Fault Refusal :=
  match decode s.params.ctxPort s.run.cur with
  | .command i => exec i s
  | .illegal _ => .refused (.curIsNoCommand s.run.cur)

/-- A write of `w` to CMD (R57). The mode and key-length checks, acceptance and execution are the
command's meaning. -/
def cmdWrite (w : Word) (s : State) : Host.Outcome State Fault Refusal :=
  match s.ctl with
  | .fault => .next s
  | .run => .next (s.raise .cmdWhileBusy w)
  | .idle =>
    match decode s.params.ctxPort w with
    | .illegal _ => .next (s.raise .illegalCmd w)
    | .command i => exec i s

/-- A write of `v` to DIN (R58). With PERM_LATENCY above 0 the command that the byte completes
executes at a later engine step (log 4). -/
def dinWrite (v : Word) (s : State) : Host.Outcome State Fault Refusal :=
  match s.ctl with
  | .fault => .next s
  | .idle => .next (s.raise .dinUnexpected v)
  | .run =>
    if s.dinFree then
      let s1 := s.takeIn (v.extractLsb' 0 8)
      if s1.inputComplete ∧ s.params.permLatency = 0 then resume s1 else .next s1
    else .next (s.raise .dinUnexpected v)

/-- A read of DOUT (R59). -/
def doutRead (s : State) : State :=
  match s.ctl with
  | .fault => s.reply 0
  | .idle => (s.raise .doutEmpty 0).reply 0
  | .run =>
    match s.doutAvail, s.run.outBuf with
    | true, b :: rest =>
      (State.completeIfDone
        { s with run := { s.run with outBuf := rest, outLeft := s.run.outLeft - 1 } }).reply (zext32 b)
    | _, _ => (s.raise .doutEmpty 0).reply 0

/-- A read of STATUS (R32): while BUSY it uses two free values (R41; log 7). -/
def statusRead (s : State) : State :=
  match s.ctl with
  | .idle => s.reply s.status
  | .fault => s.reply s.status
  | .run => { s.reply s.status with fresh := s.fresh + 2 }

/-- `RegRead(off)` (R52): CTRL, CMD, DIN and the reserved offsets read 0 (R33 to R35, R38). -/
def regRead (off : BitVec 8) (s : State) : State :=
  match regOf off with
  | .id => s.reply idValue
  | .status => statusRead s
  | .ctrl => s.reply 0
  | .cmd => s.reply 0
  | .din => s.reply 0
  | .dout => doutRead s
  | .faultInfo => s.reply s.faultInfo
  | .reserved => s.reply 0

/-- A write of `v` to CTRL (R33): bit 0 is SRST, the rest is ignored. -/
def ctrlWrite (v : Word) (s : State) : State := if v.getLsbD 0 then s.engineReset else s

/-- `RegWrite(off, v)` (R52): writes to ID, STATUS, DOUT, FAULT_INFO and the reserved offsets are
ignored (R56). -/
def regWrite (off : BitVec 8) (v : Word) (s : State) : Host.Outcome State Fault Refusal :=
  match regOf off with
  | .id => .next s
  | .status => .next s
  | .ctrl => .next (ctrlWrite v s)
  | .cmd => cmdWrite v s
  | .din => dinWrite v s
  | .dout => .next s
  | .faultInfo => .next s
  | .reserved => .next s

/-- An engine step with no host access (R62, R63; logs 4 to 6): while RUN, a command whose input is
complete executes if it has not; otherwise the input buffer is emptied and the output buffer filled. -/
def engineStep (s : State) : Host.Outcome State Fault Refusal :=
  match s.ctl with
  | .idle => .next s
  | .fault => .next s
  | .run =>
    if s.inputComplete ∧ s.run.executed = false then resume s.drainIn
    else .next s.drainIn.refillOut

/-- One event of the schedule (R52, R68). An address outside the window is no access of the engine
(R50; log 10). -/
def event (e : HostEvent) (s : State) : Host.Outcome State Fault Refusal :=
  match e with
  | .read addr =>
    match windowOffset s.params addr with
    | some off => .next (regRead off s)
    | none => .fault (.outsideWindow addr)
  | .write addr v =>
    match windowOffset s.params addr with
    | some off => regWrite off v s
    | none => .fault (.outsideWindow addr)
  | .writeLanes addr v driven =>
    match windowOffset s.params addr with
    | some off => regWrite off (fillLanes v driven s.fresh) { s with fresh := s.fresh + 4 }
    | none => .fault (.outsideWindow addr)
  | .reset => .next s.engineReset
  | .engine => engineStep s

end Sys2Proof.Machine
end

