-- ==== Sys2Proof/Machine/Step.lean ====
section
/-! DEFINITION. One step of the machine: the oldest event of the schedule, and how a command word comes to run. -/

namespace Sys2Proof.Machine

/-- One step: the oldest pending event is applied completely (R52, R68). With no event pending the
host is silent and the engine takes a step of its own (R62, R63; log 2). -/
def step (s : State) : Host.Outcome State Fault Refusal :=
  match s.pending with
  | [] => engineStep s
  | e :: rest => event e { s with pending := rest }

/-- `s` with a write of the command word `w` to CMD as the next event: the only way a command comes
to run (R57, R71; log 2). -/
def State.withFetchWord (s : State) (nbits w : Nat) : State :=
  { s with pending :=
      .write (s.params.base + cmdOffset) (BitVec.ofNat 32 (w % 2 ^ nbits)) :: s.pending }

end Sys2Proof.Machine
end

