-- ==== Sys2Proof/Safety.lean ====
section
/-! DEFINITION. What claims about the machine are stated in: the invariant of its states, the host protocol of R290, the states in which a command executes, and the event lists of one whole command. -/

namespace Sys2Proof.Machine

/-- The RUN record agrees with the command CUR (R27, R57 to R65). -/
def State.recordOk (s : State) : Bool :=
  match decode s.params.ctxPort s.run.cur with
  | .illegal _ => false
  | .command i =>
    admitted s.params.ctxPort s.session.mode i &&
    decide (s.run.inNeed = inLen i) &&
    (if s.run.executed then
      decide (s.run.inBuf.length = s.run.inNeed) &&
      decide (s.run.outBuf.length + s.run.outRest.length = s.run.outLeft) &&
      decide (0 < s.run.outLeft) && decide (s.run.outLeft ≤ outLen i) &&
      decide (s.run.outBuf.length ≤ s.params.doutDepth)
    else
      decide (s.run.inBuf.length ≤ s.run.inNeed) &&
      decide (s.run.inBuf.length = s.run.inNeed → 0 < s.params.permLatency) &&
      decide (s.run.dinHeld ≤ s.run.inBuf.length) &&
      decide (s.run.outLeft = outLen i) && s.run.outBuf.isEmpty && s.run.outRest.isEmpty)

/-- The invariant: legal parameters (R9); a RUN record only in RUN, and then one that agrees with its
command (R27); CAUSE and FAULT_INFO 0 outside FAULT, and a cause in FAULT (R28). -/
abbrev State.Inv (s : State) : Prop :=
  s.params.Legal ∧
  (s.ctl ≠ .run → s.run = RunRecord.empty) ∧
  (s.ctl = .run → s.recordOk = true) ∧
  (s.ctl ≠ .fault → s.cause = .none ∧ s.faultInfo = 0) ∧
  (s.ctl = .fault → s.cause ≠ .none)

/-- The command whose transaction is due: RUN, all input received, not executed, and the record of
lengths that acceptance of `i` wrote (R57, R64). -/
abbrev State.ReadyFor (s : State) (i : Instr) : Prop :=
  s.ctl = .run ∧ s.run.executed = false ∧ s.run.inBuf.length = inLen i ∧
  s.run.inNeed = inLen i ∧ s.run.outLeft = outLen i

/-- The register the next event writes, and the value the engine receives (R52, R53). -/
def State.written (s : State) : Option (Reg × Word) :=
  match s.pending with
  | .write addr v :: _ => (windowOffset s.params addr).map fun off => (regOf off, v)
  | .writeLanes addr v driven :: _ =>
    (windowOffset s.params addr).map fun off => (regOf off, fillLanes v driven s.fresh)
  | .read _ :: _ => none
  | .reset :: _ => none
  | .engine :: _ => none
  | [] => none

/-- The register the next event reads (R52). -/
def State.readsNext (s : State) : Option Reg :=
  match s.pending with
  | .read addr :: _ => (windowOffset s.params addr).map regOf
  | .write _ _ :: _ => none
  | .writeLanes _ _ _ :: _ => none
  | .reset :: _ => none
  | .engine :: _ => none
  | [] => none

/-- The next event resets the engine: the reset input, or a CTRL write with bit 0 = 1 (R280). -/
abbrev State.resetNext (s : State) : Prop :=
  s.pending.head? = some .reset ∨ ∃ v, s.written = some (.ctrl, v) ∧ v.getLsbD 0 = true

/-- The next event keeps the host protocol (R290 items 1 to 3, R291): CMD only when BUSY = 0 and
FAULT = 0 and in a full write, DIN only when DIN_FREE = 1, DOUT only when DOUT_AVAIL = 1. -/
def State.hostObeys (s : State) : HostEvent → Bool
  | .read addr =>
    match windowOffset s.params addr with
    | some off => regOf off ≠ .dout || s.doutAvail
    | none => false
  | .write addr _ =>
    match windowOffset s.params addr with
    | some off => (regOf off ≠ .cmd || s.ctl = .idle) && (regOf off ≠ .din || s.dinFree)
    | none => false
  | .writeLanes addr _ _ =>
    match windowOffset s.params addr with
    | some off => regOf off ≠ .cmd && (regOf off ≠ .din || s.dinFree)
    | none => false
  | .reset => true
  | .engine => true

/-- The event is an access of this engine, or no access at all (R50). -/
def inWindow (p : Params) : HostEvent → Bool
  | .read addr => (windowOffset p addr).isSome
  | .write addr _ => (windowOffset p addr).isSome
  | .writeLanes addr _ _ => (windowOffset p addr).isSome
  | .reset => true
  | .engine => true

/-- A long input cut into a first chunk and continuation chunks as R87 asks: every chunk but the last
is a non-zero multiple of the rate, and the continuation chunks are not empty. -/
abbrev SplitsAtRate (r : Nat) (X : List Byte) (Ys : List (List Byte)) : Prop :=
  (∀ Z ∈ (X :: Ys).dropLast, Z ≠ [] ∧ r ∣ Z.length) ∧ ∀ Y ∈ Ys, Y ≠ []

/-- The same for the counts of a squeeze (R87). -/
abbrev CountsSplitAtRate (r : Nat) (n : Nat) (ns : List Nat) : Prop :=
  (∀ k ∈ (n :: ns).dropLast, k ≠ 0 ∧ r ∣ k) ∧ ∀ k ∈ ns, k ≠ 0

/-- A write of a command word to CMD. -/
def writeCmd (p : Params) (w : Word) : HostEvent := .write (p.base + cmdOffset) w

/-- A write of one input byte to DIN. -/
def writeDin (p : Params) (b : Byte) : HostEvent := .write (p.base + dinOffset) (zext32 b)

/-- A read of DOUT. -/
def readDout (p : Params) : HostEvent := .read (p.base + doutOffset)

/-- One whole command on REF (R64): the word, every input byte, every output byte (R290 item 4). -/
def serveRef (p : Params) (i : Instr) (I : List Byte) (n : Nat) : List HostEvent :=
  writeCmd p (encode i) :: (I.map (writeDin p) ++ List.replicate n (readDout p))

/-- One whole command with an engine step after every access, for an implementation of any depth
and latency (R62, R63, R290). -/
def servePaced (p : Params) (i : Instr) (I : List Byte) (n : Nat) : List HostEvent :=
  [writeCmd p (encode i), .engine] ++ I.flatMap (fun b => [writeDin p b, .engine]) ++
    (List.replicate n [readDout p, .engine]).flatten

end Sys2Proof.Machine
end

