-- ==== Sys2Proof/Certificates/Slice0/Obligations.lean ====
section
/-! DEFINITION. The statements about the XDY engine for the provers. -/

open Sys2Proof Sys2Proof.Machine

/-- Words the spec writes out (R93, 95_test_vectors.md §2.8) decode to the commands it names. -/
def Obligations.DecodeReadsTheWordsOfTheSpec : Prop :=
  decode .present 0x00000001 = .command .initHash ∧
  decode .present 0x01101002 = .command (.initKeyed 16 16 1) ∧
  decode .present 0x00030003 = .command (.absorb 3 false) ∧
  decode .present 0x00100103 = .command (.absorb 16 true) ∧
  decode .present 0x00200004 = .command (.squeeze 32 false) ∧
  decode .present 0x00000105 = .command (.squeezeKey 0 true) ∧
  decode .present 0x00200006 = .command (.encrypt 32 false) ∧
  decode .present 0x00200007 = .command (.decrypt 32 false) ∧
  decode .present 0x00000008 = .command .ratchet ∧
  decode .present 0x00000010 = .command .permute ∧
  decode .present 0x00000011 = .command .ctxSave ∧
  decode .present 0x00000012 = .command .ctxRestore ∧
  decode .present 0x01000001 = .illegal .reservedBits ∧
  decode .present 0x00C01002 = .illegal .reservedBits ∧
  decode .present 0x00004002 = .illegal .reservedBits ∧
  decode .present 0x00008005 = .illegal .reservedBits ∧
  decode .present 0x00000009 = .illegal .unlistedOpcode

/-- Decoding the word of a well-formed command gives the command back, with every operand (R90, R93). -/
def Obligations.DecodeOfEncodeIsTheCommand : Prop :=
  ∀ i : Instr, i.WellFormed → decode .present (encode i) = .command i

/-- A word that decodes to a command is that command's word: no two words are one command (R88, R90,
R93); and a command of the context port is decoded only where the port is present (R89). -/
def Obligations.LegalWordsAreEncodings : Prop :=
  ∀ (port : CtxPort) (w : Word) (i : Instr), decode port w = .command i →
    i.WellFormed ∧ encode i = w ∧
    (i = .permute ∨ i = .ctxSave ∨ i = .ctxRestore → port = .present)

/-- R88: a word is a command exactly when it belongs to one row of the opcode table that the
parameter admits, and then to no other row; the all-zero word is illegal; an illegal word written to
CMD in IDLE raises ILLEGAL_CMD with the word. -/
def Obligations.LegalWordsAreTheTableRows : Prop :=
  (∀ (port : CtxPort) (w : Word),
    (∃ i, decode port w = .command i) ↔ ∃! r, r ∈ opcodeTable ∧ r.covers port w = true) ∧
  (∀ port : CtxPort, ∃ why, decode port 0 = .illegal why) ∧
  (∀ (s : State) (w : Word) (why : Illegal), s.ctl = .idle → s.written = some (.cmd, w) →
    decode s.params.ctxPort w = .illegal why →
    ∃ t, step s = .next t ∧ t.ctl = .fault ∧ t.cause = .illegalCmd ∧ t.faultInfo = w)

/-- R89, R91: without the context port exactly the opcodes 0x10 to 0x12 become illegal, and every other
word decodes as with it. -/
def Obligations.DecodeWithoutTheContextPort : Prop :=
  ∀ w : Word,
    ((opcOf w = 0x10 ∨ opcOf w = 0x11 ∨ opcOf w = 0x12) →
      ∃ why, decode .absent w = .illegal why) ∧
    (¬ (opcOf w = 0x10 ∨ opcOf w = 0x11 ∨ opcOf w = 0x12) →
      decode .absent w = decode .present w)

/-- R57, R71: the step whose event writes a command word to CMD in IDLE runs the decoded command. -/
def Obligations.StepRunsThePresentedCommand : Prop :=
  ∀ (s : State) (addr : Nat) (w : Word) (off : BitVec 8) (rest : List HostEvent) (i : Instr),
    s.pending = .write addr w :: rest → windowOffset s.params addr = some off → regOf off = .cmd →
    s.ctl = .idle → decode s.params.ctxPort w = .command i →
    step s = exec i { s with pending := rest }

/-- R58, R64: the DIN write that delivers the last input byte runs the command CUR on the state that
holds the byte (latency 0); with latency (log 4, the model's choice) the next engine step does. -/
def Obligations.StepRunsTheCommandWhenItsInputIsComplete : Prop :=
  (∀ (s : State) (addr : Nat) (v : Word) (off : BitVec 8) (rest : List HostEvent) (i : Instr),
    s.pending = .write addr v :: rest → windowOffset s.params addr = some off → regOf off = .din →
    s.ctl = .run → s.dinFree = true → s.run.inBuf.length + 1 = s.run.inNeed →
    s.params.permLatency = 0 → decode s.params.ctxPort s.run.cur = .command i →
    step s = exec i
      { s with pending := rest,
               run := { s.run with inBuf := s.run.inBuf ++ [v.extractLsb' 0 8],
                                   dinHeld := s.run.dinHeld + 1 } }) ∧
  (∀ (s : State) (rest : List HostEvent) (i : Instr),
    s.pending = .engine :: rest → s.ctl = .run → s.run.inBuf.length = s.run.inNeed →
    s.run.executed = false → decode s.params.ctxPort s.run.cur = .command i →
    step s = exec i { s with pending := rest, run := { s.run with dinHeld := 0 } })

/-- The word `withFetchWord` places is the next command (log 2): from IDLE the very next step runs it. -/
def Obligations.FetchWordRunsNext : Prop :=
  ∀ (s : State) (w : Word) (i : Instr), s.ctl = .idle → decode s.params.ctxPort w = .command i →
    step (s.withFetchWord 32 w.toNat) = exec i s

/-- R57, R241, R242, R244: what a CMD write that is not accepted does, in the order of the checks: busy,
illegal, mode, key length. In every case the write has no other effect.
(CUR and IN_NEED of `RunRecord.empty` are 0: log 9, the model's choice.) -/
def Obligations.CmdWriteChecksInOrder : Prop :=
  ∀ (s : State) (addr : Nat) (w : Word) (off : BitVec 8) (rest : List HostEvent),
    s.pending = .write addr w :: rest → windowOffset s.params addr = some off → regOf off = .cmd →
    let failed (c : Cause) : State :=
      { s with pending := rest, ctl := .fault, cause := c, faultInfo := w, run := RunRecord.empty }
    (s.ctl = .fault → step s = .next { s with pending := rest }) ∧
    (s.ctl = .run → step s = .next (failed .cmdWhileBusy)) ∧
    (∀ why, s.ctl = .idle → decode s.params.ctxPort w = .illegal why →
      step s = .next (failed .illegalCmd)) ∧
    (∀ i, s.ctl = .idle → decode s.params.ctxPort w = .command i →
      ((∃ len cont, i = .squeezeKey len cont ∨ i = .encrypt len cont ∨ i = .decrypt len cont) ∨
        i = .ratchet) →
      s.session.mode = .hash → step s = .next (failed .modeViolation)) ∧
    (∀ klen idlen clen, s.ctl = .idle →
      decode s.params.ctxPort w = .command (.initKeyed klen idlen clen) →
      (klen = 0 ∨ 44 < klen + idlen + 1) → step s = .next (failed .keyLength))

/-- R57, R89, R92: which commands pass the checks of R57; InLen and OutLen of every command; and an
admitted command in IDLE starts its RUN record: it executes at once when it takes no input (and there is
no latency: log 4), in a state that is ready for it, and otherwise waits. (`dinHeld` and `outRest` are
the model's own: logs 5, 6.) -/
def Obligations.AcceptedCommandStartsItsRecord : Prop :=
  (∀ (port : CtxPort) (m : Mode) (i : Instr), admitted port m i = true ↔
    (i = .permute ∨ i = .ctxSave ∨ i = .ctxRestore → port = .present) ∧
    ((∃ len cont, i = .squeezeKey len cont ∨ i = .encrypt len cont ∨ i = .decrypt len cont) ∨
      i = .ratchet → m = .keyed) ∧
    (∀ klen idlen clen, i = .initKeyed klen idlen clen → klen ≠ 0 ∧ klen + idlen + 1 ≤ 44)) ∧
  (∀ i : Instr, (inLen i, outLen i) =
    (match i with
     | .initHash => (0, 0)
     | .initKeyed klen idlen clen => (klen + idlen + clen, 0)
     | .absorb len _ => (len, 0)
     | .squeeze len _ => (0, len)
     | .squeezeKey len _ => (0, len)
     | .encrypt len _ => (len, len)
     | .decrypt len _ => (len, len)
     | .ratchet => (0, 0)
     | .permute => (0, 0)
     | .ctxSave => (0, 49)
     | .ctxRestore => (49, 0))) ∧
  ∀ (i : Instr) (s : State), s.ctl = .idle → admitted s.params.ctxPort s.session.mode i = true →
    let t : State :=
      { s with ctl := .run,
               run := { cur := encode i, inNeed := inLen i, inBuf := [], executed := false,
                        outBuf := [], outLeft := outLen i, dinHeld := 0, outRest := [] } }
    (inLen i = 0 → s.params.permLatency = 0 → t.ReadyFor i ∧ exec i s = exec i t) ∧
    ((inLen i ≠ 0 ∨ s.params.permLatency ≠ 0) → exec i s = .next t)

/-- R170: INIT_HASH, when it executes, zeroes S and sets MODE = Hash, PHASE = Up; it completes and
changes nothing else. (CUR and IN_NEED of `RunRecord.empty` are 0: log 9, the model's choice.) -/
def Obligations.InitHashStartsAHashSession : Prop :=
  ∀ s : State, s.ReadyFor .initHash →
    exec .initHash s =
      .next { s with session := { S := zeroBytes, mode := .hash, phase := .up },
                     ctl := .idle, run := RunRecord.empty }

/-- R190: INIT_KEYED, when it executes, absorbs `key ‖ id ‖ [IDLEN]` into a zero keyed session at rate 44
with flag AbsorbKey, and a non-empty counter at rate 1 with flag Zero; it completes.
(CUR and IN_NEED of `RunRecord.empty` are 0: log 9, the model's choice.) -/
def Obligations.InitKeyedAbsorbsKeyIdAndCounter : Prop :=
  ∀ (klen idlen clen : Nat) (s : State), s.ReadyFor (.initKeyed klen idlen clen) →
    ∃ key id counter : List Byte,
      s.run.inBuf = key ++ id ++ counter ∧ key.length = klen ∧ id.length = idlen ∧
      counter.length = clen ∧
      exec (.initKeyed klen idlen clen) s =
        .next { s with
          session :=
            (let d := absorbAny { S := zeroBytes, mode := .keyed, phase := .up }
                        (key ++ id ++ [BitVec.ofNat 8 idlen]) 44 .absorbKey
             if counter = [] then d else absorbAny d counter 1 .zero),
          ctl := .idle, run := RunRecord.empty }

/-- R172: ABSORB, when it executes, absorbs its input at absorbRate(MODE), with flag Absorb or (CONT)
Zero; it completes. R144: AbsorbAny, block by block: an Up(Zero) before a block that finds PHASE = Down,
the Down of the block, and the flag Zero from the second block on.
(CUR and IN_NEED of `RunRecord.empty` are 0: log 9, the model's choice.) -/
def Obligations.AbsorbAbsorbsTheInput : Prop :=
  (∀ (len : Nat) (cont : Bool) (s : State), s.ReadyFor (.absorb len cont) →
    exec (.absorb len cont) s =
      .next { s with
        session := absorbAny s.session s.run.inBuf
          (match s.session.mode with | .hash => 16 | .keyed => 44) (if cont then .zero else .absorb),
        ctl := .idle, run := RunRecord.empty }) ∧
  (∀ (d : Session) (X : List Byte) (r : Nat) (cd : Flag), 1 ≤ r →
    let d0 : Session := match d.phase with | .up => d | .down => d.up .zero
    (X.length ≤ r → absorbAny d X r cd = d0.down X cd) ∧
    (r < X.length →
      absorbAny d X r cd = absorbAny (d0.down (X.take r) cd) (X.drop r) r .zero))

/-- R174, R193: SQUEEZE and SQUEEZE_KEY, when they execute, run SqueezeAny with their own flag, or (CONT)
SqueezeCont; with LEN = 0 they complete, otherwise their bytes stand in OUT_BUF (and, above
DOUT_DEPTH bytes, behind it: log 6, the model's choice). R146, R147, R24: SqueezeAny is one Up with the
flag and then SqueezeCont; SqueezeCont is, block by block at squeezeRate 16 (Hash) or 24 (Keyed), a
Down(ε, Zero) and an Up(Zero).
(CUR and IN_NEED of `RunRecord.empty` are 0: log 9, the model's choice.) -/
def Obligations.SqueezeAndSqueezeKeyGiveTheirBytes : Prop :=
  (∀ (len : Nat) (cont : Bool) (s : State) (i : Instr) (f : Flag),
    (i = .squeeze len cont ∧ f = .squeeze ∨ i = .squeezeKey len cont ∧ f = .squeezeKey) →
    s.ReadyFor i →
    let r := if cont then squeezeCont s.session len else squeezeAny s.session len f
    exec i s =
      .next (if len = 0 then { s with session := r.1, ctl := .idle, run := RunRecord.empty }
        else { s with session := r.1,
                      run := { s.run with executed := true, outBuf := r.2.take s.params.doutDepth,
                                          outRest := r.2.drop s.params.doutDepth } })) ∧
  (∀ (d : Session) (n : Nat) (cu : Flag),
    let block : Nat := min n (match d.mode with | .hash => 16 | .keyed => 24)
    let first := d.up cu
    let again := (d.down [] .zero).up .zero
    squeezeAny d n cu = ((squeezeCont first (n - block)).1,
      first.out block ++ (squeezeCont first (n - block)).2) ∧
    squeezeCont d 0 = (d, []) ∧
    (n ≠ 0 → squeezeCont d n = ((squeezeCont again (n - block)).1,
      again.out block ++ (squeezeCont again (n - block)).2)))

/-- R195, R197: ENCRYPT and DECRYPT, when they execute, run Crypt in their direction on the input, with
flag Crypt or (CONT) Zero; with LEN = 0 they complete, otherwise their bytes stand in OUT_BUF (and,
above DOUT_DEPTH bytes, behind it: log 6, the model's choice). R148: Crypt, block by block of 24 bytes:
an Up, the output block `Q`, the Down of the plaintext block, and the flag Zero from the second block on.
(CUR and IN_NEED of `RunRecord.empty` are 0: log 9, the model's choice.) -/
def Obligations.EncryptAndDecryptCryptTheInput : Prop :=
  (∀ (len : Nat) (cont : Bool) (s : State) (i : Instr) (dir : Direction),
    (i = .encrypt len cont ∧ dir = .encrypt ∨ i = .decrypt len cont ∧ dir = .decrypt) →
    s.ReadyFor i →
    let r := crypt s.session s.run.inBuf dir (if cont then .zero else .crypt)
    exec i s =
      .next (if len = 0 then { s with session := r.1, ctl := .idle, run := RunRecord.empty }
        else { s with session := r.1,
                      run := { s.run with executed := true, outBuf := r.2.take s.params.doutDepth,
                                          outRest := r.2.drop s.params.doutDepth } })) ∧
  (∀ (d : Session) (I : List Byte) (dir : Direction) (cu : Flag),
    let blk := I.take 24
    let d1 := d.up cu
    let Q := List.zipWith (fun a b => a ^^^ b) blk (d1.out blk.length)
    let d2 := d1.down (match dir with | .encrypt => blk | .decrypt => Q) .zero
    (I.length ≤ 24 → crypt d I dir cu = (d2, Q)) ∧
    (24 < I.length → crypt d I dir cu =
      ((crypt d2 (I.drop 24) dir .zero).1, Q ++ (crypt d2 (I.drop 24) dir .zero).2)))

/-- R199: RATCHET, when it executes, absorbs back (at rate 44, flag Zero) the 16 bytes of one squeeze with
flag Ratchet; it completes and outputs nothing. (CUR and IN_NEED of `RunRecord.empty` are 0: log 9, the model's choice.) -/
def Obligations.RatchetFoldsTheState : Prop :=
  ∀ s : State, s.ReadyFor .ratchet →
    let r := squeezeAny s.session 16 .ratchet
    exec .ratchet s =
      .next { s with session := absorbAny r.1 r.2 44 .zero, ctl := .idle, run := RunRecord.empty }

/-- R125: PERMUTE, when it executes, replaces S by Permute(S); MODE and PHASE keep their values.
(CUR and IN_NEED of `RunRecord.empty` are 0: log 9, the model's choice.) -/
def Obligations.PermuteAppliesThePermutation : Prop :=
  ∀ s : State, s.ReadyFor .permute →
    exec .permute s =
      .next { s with session := { s.session with S := permute s.session.S },
                     ctl := .idle, run := RunRecord.empty }

/-- R220, R221: CTX_SAVE, when it executes, changes no session state and gives the 48 bytes of S and the
byte `MODE | PHASE << 1` (in OUT_BUF up to DOUT_DEPTH bytes, behind it the rest: log 6, the model's choice). -/
def Obligations.CtxSaveOutputsTheImage : Prop :=
  ∀ s : State, s.ReadyFor .ctxSave →
    ∃ (c : Byte) (t : State), exec .ctxSave s = .next t ∧
      t = { s with run := { s.run with
              executed := true, outBuf := (s.session.S.toList ++ [c]).take s.params.doutDepth,
              outRest := (s.session.S.toList ++ [c]).drop s.params.doutDepth } } ∧
      c.getLsbD 0 = decide (s.session.mode = .keyed) ∧
      c.getLsbD 1 = decide (s.session.phase = .up) ∧ c.extractLsb' 2 6 = 0

/-- R222: CTX_RESTORE, when it executes on an image whose byte 48 has bits 7:2 zero, loads S, MODE and
PHASE from it and completes; on another image it raises CTX_INVALID with that byte and applies nothing.
(CUR and IN_NEED of `RunRecord.empty` are 0: log 9, the model's choice.) -/
def Obligations.CtxRestoreLoadsTheImage : Prop :=
  ∀ (s : State) (c : Byte), s.ReadyFor .ctxRestore → s.run.inBuf[48]? = some c →
    (c.extractLsb' 2 6 = 0 →
      ∃ S : StateBytes, S.toList = s.run.inBuf.take 48 ∧
        exec .ctxRestore s =
          .next { s with
            session := { S := S, mode := if c.getLsbD 0 then .keyed else .hash,
                         phase := if c.getLsbD 1 then .up else .down },
            ctl := .idle, run := RunRecord.empty }) ∧
    (c.extractLsb' 2 6 ≠ 0 →
      exec .ctxRestore s =
        .next { s with ctl := .fault, cause := .ctxInvalid, faultInfo := c.setWidth 32,
                       run := RunRecord.empty })

/-- R57, R64, R65: on an engine without latency, an admitted command that takes no input executes at its
CMD write: from IDLE the next state has its transaction's session, and it is IDLE again unless
there is output to read. (CUR and IN_NEED of `RunRecord.empty` are 0: log 9, the model's choice.) -/
def Obligations.NoInputCommandsExecuteWhenPresented : Prop :=
  ∀ (i : Instr) (s : State), s.ctl = .idle → s.params.permLatency = 0 → inLen i = 0 →
    admitted s.params.ctxPort s.session.mode i = true →
    ∃ (d : Session) (O : List Byte) (t : State),
      transaction i s.session [] = .done d O ∧ exec i s = .next t ∧ t.session = d ∧
      (O = [] → t.ctl = .idle ∧ t.run = RunRecord.empty) ∧
      (O ≠ [] → t.ctl = .run ∧ t.run.executed = true ∧ t.run.outBuf ++ t.run.outRest = O)

/-- What a command leaves alone (frame of all eleven): the parameters, the events to come, the replies
and the free-value counter always; CAUSE and FAULT_INFO unless the command faults; the session when
the command is only accepted, is turned away, or is CTX_SAVE. -/
def Obligations.CommandsFrame : Prop :=
  ∀ (i : Instr) (s t : State), exec i s = .next t →
    t.params = s.params ∧ t.pending = s.pending ∧ t.replies = s.replies ∧ t.fresh = s.fresh ∧
    (t.ctl ≠ .fault → t.cause = s.cause ∧ t.faultInfo = s.faultInfo) ∧
    ((t.ctl = .fault ∨ t.run.executed = false ∧ t.ctl = .run ∨ i = .ctxSave) → t.session = s.session)

/-- R58: the effect of a DIN write in each CTL state. The byte that completes the input runs the command
at once on an engine without latency (R64); with latency it is only delivered, and the command waits
for an engine step (log 4, the model's choice). (`dinHeld`: log 5.)
(CUR and IN_NEED of `RunRecord.empty` are 0: log 9, the model's choice.) -/
def Obligations.DinWriteDeliversOneByte : Prop :=
  ∀ (s : State) (addr : Nat) (v : Word) (off : BitVec 8) (rest : List HostEvent),
    s.pending = .write addr v :: rest → windowOffset s.params addr = some off → regOf off = .din →
    let failed : State :=
      { s with pending := rest, ctl := .fault, cause := .dinUnexpected, faultInfo := v,
               run := RunRecord.empty }
    let taken : State :=
      { s with pending := rest,
               run := { s.run with inBuf := s.run.inBuf ++ [v.extractLsb' 0 8],
                                   dinHeld := s.run.dinHeld + 1 } }
    (s.ctl = .fault → step s = .next { s with pending := rest }) ∧
    (s.ctl = .idle → step s = .next failed) ∧
    (s.ctl = .run → s.dinFree = false → step s = .next failed) ∧
    (s.ctl = .run → s.dinFree = true → taken.run.inBuf.length ≠ s.run.inNeed →
      step s = .next taken) ∧
    (s.ctl = .run → s.dinFree = true → s.params.permLatency ≠ 0 → step s = .next taken) ∧
    (∀ i, s.ctl = .run → s.dinFree = true → taken.run.inBuf.length = s.run.inNeed →
      s.params.permLatency = 0 → decode s.params.ctxPort s.run.cur = .command i →
      step s = exec i taken)

/-- R59: the effect of a DOUT read in each CTL state; the last byte completes the command (R65).
(CUR and IN_NEED of `RunRecord.empty` are 0: log 9, the model's choice.) -/
def Obligations.DoutReadRemovesOneByte : Prop :=
  ∀ (s : State) (addr : Nat) (off : BitVec 8) (rest : List HostEvent),
    s.pending = .read addr :: rest → windowOffset s.params addr = some off → regOf off = .dout →
    let failed : State :=
      { s with pending := rest, ctl := .fault, cause := .doutEmpty, faultInfo := 0,
               run := RunRecord.empty, replies := s.replies ++ [0] }
    (s.ctl = .fault → step s = .next { s with pending := rest, replies := s.replies ++ [0] }) ∧
    (s.ctl = .idle → step s = .next failed) ∧
    (s.ctl = .run → s.doutAvail = false → step s = .next failed) ∧
    (∀ b more, s.ctl = .run → s.doutAvail = true → s.run.outBuf = b :: more →
      step s = .next
        (if s.run.outLeft = 1 then
          { s with pending := rest, replies := s.replies ++ [b.setWidth 32], ctl := .idle,
                   run := RunRecord.empty }
        else
          { s with pending := rest, replies := s.replies ++ [b.setWidth 32],
                   run := { s.run with outBuf := more, outLeft := s.run.outLeft - 1 } }))

/-- R32, R241: every field of STATUS, with the code of every cause; MODE and PHASE in IDLE, 0 in FAULT (while
BUSY they are unspecified, R41). How the buffers of R62 and R63 fill is the model's choice (logs 5, 6). -/
def Obligations.StatusShowsTheEngine : Prop :=
  ∀ s : State,
    s.status.getLsbD 0 = decide (s.ctl = .run) ∧
    s.status.getLsbD 1 = decide (s.ctl = .run ∧ s.run.inBuf.length < s.run.inNeed ∧
      s.run.dinHeld < s.params.dinDepth) ∧
    s.status.getLsbD 2 = decide (s.ctl = .run ∧ s.run.executed = true ∧ 0 < s.run.outLeft ∧
      s.run.outBuf ≠ []) ∧
    s.status.getLsbD 3 = decide (s.ctl = .fault) ∧
    s.status.extractLsb' 4 4 = 0 ∧
    s.status.extractLsb' 8 4 =
      (match s.cause with
       | .none => 0
       | .illegalCmd => 1
       | .modeViolation => 2
       | .keyLength => 3
       | .cmdWhileBusy => 4
       | .dinUnexpected => 5
       | .doutEmpty => 6
       | .ctxInvalid => 7) ∧
    s.status.extractLsb' 12 4 = 0 ∧
    (s.ctl = .idle →
      s.status.getLsbD 16 = decide (s.session.mode = .keyed) ∧
      s.status.getLsbD 17 = decide (s.session.phase = .up)) ∧
    (s.ctl = .fault → s.status.getLsbD 16 = false ∧ s.status.getLsbD 17 = false) ∧
    s.status.extractLsb' 18 14 = 0

/-- R31 to R38, R56: a read of any register but DOUT returns that register's value and changes nothing of
the engine. (The free-value counter may advance, log 7.) -/
def Obligations.ReadsWithoutSideEffects : Prop :=
  ∀ (s : State) (addr : Nat) (off : BitVec 8) (rest : List HostEvent),
    s.pending = .read addr :: rest → windowOffset s.params addr = some off → regOf off ≠ .dout →
    ∃ (v : Word) (n : Nat),
      step s = .next { s with pending := rest, replies := s.replies ++ [v], fresh := n } ∧
      v = match regOf off with
          | .id => 0x58445901
          | .status => s.status
          | .faultInfo => s.faultInfo
          | .ctrl => 0
          | .cmd => 0
          | .din => 0
          | .dout => 0
          | .reserved => 0

/-- R33, R38, R56: writes to ID, STATUS, DOUT, FAULT_INFO and the reserved offsets, and CTRL writes with
bit 0 = 0, change nothing. -/
def Obligations.IgnoredWritesChangeNothing : Prop :=
  ∀ (s : State) (addr : Nat) (v : Word) (off : BitVec 8) (rest : List HostEvent),
    s.pending = .write addr v :: rest → windowOffset s.params addr = some off →
    (regOf off = .id ∨ regOf off = .status ∨ regOf off = .dout ∨ regOf off = .faultInfo ∨
      regOf off = .reserved ∨ regOf off = .ctrl ∧ v.getLsbD 0 = false) →
    step s = .next { s with pending := rest }

/-- R50 to R53: the window is the 256 addresses from BASE on, the register map, and the two low address
bits are ignored. -/
def Obligations.LowAddressBitsAreIgnored : Prop :=
  (∀ (off : BitVec 8) (v : Word) (s : State),
    regRead off s = regRead (off &&& 0xFC) s ∧ regWrite off v s = regWrite (off &&& 0xFC) v s) ∧
  (regOf 0x00 = .id ∧ regOf 0x04 = .status ∧ regOf 0x08 = .ctrl ∧ regOf 0x0C = .cmd ∧
    regOf 0x10 = .din ∧ regOf 0x14 = .dout ∧ regOf 0x18 = .faultInfo ∧
    ∀ off : BitVec 8, 0x1C ≤ off → regOf off = .reserved) ∧
  (∀ (p : Params) (addr : Nat) (off : BitVec 8),
    windowOffset p addr = some off ↔ addr = p.base + off.toNat)

/-- R53, I14: a narrow write is a full write of a value that has the host's byte on every driven lane;
the other lanes are free (log 8). -/
def Obligations.NarrowWriteIsAFullWrite : Prop :=
  ∀ (s : State) (addr : Nat) (v : Word) (driven : BitVec 4) (rest : List HostEvent),
    s.pending = .writeLanes addr v driven :: rest →
    ∃ (v' : Word) (n : Nat),
      (∀ k, k < 4 → driven.getLsbD k = true → v'.extractLsb' (8 * k) 8 = v.extractLsb' (8 * k) 8) ∧
      step s = step { s with pending := .write addr v' :: rest, fresh := n }

/-- R62, R63 (liveness): with no host action, one engine step makes DIN_FREE 1 while input is missing, and
makes DOUT_AVAIL 1 once the input is complete and output is left. (That ONE step is enough is the
model's choice, logs 4 to 6.) -/
def Obligations.EngineStepMakesThePortsReady : Prop :=
  ∀ (s : State) (rest : List HostEvent), s.Inv → s.ctl = .run →
    s.pending = .engine :: rest →
    (s.run.inBuf.length < s.run.inNeed → ∃ t, step s = .next t ∧ t.dinFree = true) ∧
    (s.run.inBuf.length = s.run.inNeed → 0 < s.run.outLeft →
      ∃ t, step s = .next t ∧ t.doutAvail = true)

/-- R250, R251: whatever step enters FAULT writes no session state, clears the RUN record and records a
cause; the faulting access returns 0 if it is a read and has no other effect.
(CUR and IN_NEED of `RunRecord.empty` are 0: log 9, the model's choice.) -/
def Obligations.FaultEntryKeepsTheSession : Prop :=
  ∀ s t : State, step s = .next t → s.ctl ≠ .fault → t.ctl = .fault →
    t.session = s.session ∧ t.run = RunRecord.empty ∧ t.cause ≠ .none ∧
    t.params = s.params ∧ t.pending = s.pending.tail ∧
    t.replies = (if s.readsNext = some .dout then s.replies ++ [0] else s.replies)

/-- R241, R242: what raises each cause and what FAULT_INFO records: causes 1 to 4 the word written to CMD,
cause 5 the value written to DIN, cause 6 zero, cause 7 the context byte, byte 48 of the image: the image
is the input received, with the byte now written to DIN, or (with latency, log 4) at an engine step. -/
def Obligations.FaultInfoRecordsTheAccess : Prop :=
  ∀ s t : State, s.Inv → step s = .next t → s.ctl ≠ .fault → t.ctl = .fault →
    match t.cause with
    | .none => False
    | .illegalCmd =>
      s.ctl = .idle ∧ s.written = some (.cmd, t.faultInfo) ∧
        ∃ why, decode s.params.ctxPort t.faultInfo = .illegal why
    | .modeViolation =>
      s.ctl = .idle ∧ s.written = some (.cmd, t.faultInfo) ∧ s.session.mode = .hash ∧
        ∃ i, decode s.params.ctxPort t.faultInfo = .command i ∧ needsKeyed i = true
    | .keyLength =>
      s.ctl = .idle ∧ s.written = some (.cmd, t.faultInfo) ∧
        ∃ k d c, decode s.params.ctxPort t.faultInfo = .command (.initKeyed k d c) ∧
          (k = 0 ∨ 44 < k + d + 1)
    | .cmdWhileBusy => s.ctl = .run ∧ s.written = some (.cmd, t.faultInfo)
    | .dinUnexpected => s.written = some (.din, t.faultInfo) ∧ s.dinFree = false
    | .doutEmpty => s.readsNext = some .dout ∧ s.doutAvail = false ∧ t.faultInfo = 0
    | .ctxInvalid =>
      s.ctl = .run ∧ s.run.cur = encode .ctxRestore ∧
        ∃ (I : List Byte) (c : Byte),
          ((∃ v, s.written = some (.din, v) ∧ I = s.run.inBuf ++ [v.extractLsb' 0 8]) ∨
            ((s.pending = [] ∨ s.pending.head? = some .engine) ∧ I = s.run.inBuf)) ∧
          I.length = 49 ∧ I[48]? = some c ∧ c.extractLsb' 2 6 ≠ 0 ∧ t.faultInfo = c.setWidth 32

/-- R252, R253: in FAULT an event that is no reset changes nothing of the engine (the first cause is
kept), and a reset event gives the reset state: nothing else leaves FAULT. (CUR and IN_NEED of `RunRecord.empty` are 0: log 9, the model's choice.) -/
def Obligations.FaultIsLeftOnlyByReset : Prop :=
  ∀ s t : State, s.ctl = .fault → step s = .next t →
    (s.resetNext →
      t = { s with pending := s.pending.tail, fresh := t.fresh, ctl := .idle, cause := .none,
                   faultInfo := 0, run := RunRecord.empty,
                   session := { S := zeroBytes, mode := .hash, phase := .up } }) ∧
    (¬ s.resetNext →
      t = { s with pending := s.pending.tail, fresh := t.fresh, replies := t.replies } ∧
      (s.readsNext = some .dout → t.replies = s.replies ++ [0]))

/-- R252, R41, R251: in FAULT nothing observable depends on S, MODE or PHASE: two engines that differ only
in their session answer every event alike, and a reset makes them equal. -/
def Obligations.FaultHidesTheSession : Prop :=
  ∀ (s : State) (d : Session), s.ctl = .fault →
    match step s with
    | .next t =>
      (t.ctl = .fault ∧ step { s with session := d } = .next { t with session := d }) ∨
      (t.ctl = .idle ∧ step { s with session := d } = .next t)
    | .fault r => step { s with session := d } = .fault r
    | .refused r => step { s with session := d } = .refused r

/-- R67 ("No access reads S"): in every CTL state, two engines that differ only in the bytes of S answer
every register read alike and still differ only in S. -/
def Obligations.NoReadDependsOnS : Prop :=
  ∀ (s : State) (S' : StateBytes) (addr : Nat) (rest : List HostEvent),
    s.pending = .read addr :: rest →
    match step s with
    | .next t =>
      step { s with session := { s.session with S := S' } } =
        .next { t with session := { t.session with S := S' } }
    | .fault r => step { s with session := { s.session with S := S' } } = .fault r
    | .refused _ => False

/-- R280, R245: the reset input, or a CTRL write with bit 0 = 1, in any state, gives every piece of the
engine's state its reset value of R39. (CUR and IN_NEED of `RunRecord.empty` are 0: log 9, the model's choice.) -/
def Obligations.ResetFromEveryState : Prop :=
  ∀ (s : State) (rest : List HostEvent),
    let t : State :=
      { s with pending := rest, session := { S := zeroBytes, mode := .hash, phase := .up },
               ctl := .idle, run := RunRecord.empty, cause := .none, faultInfo := 0 }
    (s.pending = .reset :: rest → step s = .next t) ∧
    (∀ (addr : Nat) (v : Word) (off : BitVec 8), s.pending = .write addr v :: rest →
      windowOffset s.params addr = some off → regOf off = .ctrl → v.getLsbD 0 = true →
      step s = .next t)

/-- R39, R281: the values reset leaves, STATUS 0x00020000 among them; the session is the one INIT_HASH
gives. -/
def Obligations.ResetStateValues : Prop :=
  State.reset.session = { S := zeroBytes, mode := .hash, phase := .up } ∧
  (∀ i, i < 48 → byteAt State.reset.session.S i = 0) ∧
  State.reset.ctl = .idle ∧ State.reset.cause = .none ∧ State.reset.faultInfo = 0 ∧
  State.reset.run.inBuf = [] ∧ State.reset.run.outBuf = [] ∧ State.reset.run.executed = false ∧
  State.reset.run.inNeed = 0 ∧ State.reset.run.outLeft = 0 ∧
  State.reset.status = 0x00020000 ∧
  (∀ d I, transaction .initHash d I = .done State.reset.session [])

/-- R290: a host that keeps the protocol meets no CMD_WHILE_BUSY, DIN_UNEXPECTED or DOUT_EMPTY: only the
causes of a word or image it chose. -/
def Obligations.ProtocolHostMeetsOnlyContractFaults : Prop :=
  ∀ (s t : State) (e : HostEvent) (rest : List HostEvent), s.Inv → s.pending = e :: rest →
    s.hostObeys e = true → step s = .next t → s.ctl ≠ .fault → t.ctl = .fault →
    t.cause = .illegalCmd ∨ t.cause = .modeViolation ∨ t.cause = .keyLength ∨ t.cause = .ctxInvalid

/-- R140, R150: Down on a block of at most 44 bytes, byte by byte, with the flag's value (R95) in Keyed
mode and its low bit (R96) in Hash mode. -/
def Obligations.DownXorsBlockPaddingAndFlag : Prop :=
  ∀ (d : Session) (X : List Byte) (cd : Flag), X.length ≤ 44 →
    (d.down X cd).phase = .down ∧ (d.down X cd).mode = d.mode ∧
    ∀ i, i < 48 →
      byteAt (d.down X cd).S i =
        byteAt d.S i ^^^
          (if i < X.length then X[i]?.getD 0
           else if i = X.length then 0x01
           else if i = 47 then
             (match d.mode with
              | .keyed =>
                (match cd with
                 | .zero => 0x00
                 | .absorbKey => 0x02
                 | .absorb => 0x03
                 | .ratchet => 0x10
                 | .squeezeKey => 0x20
                 | .squeeze => 0x40
                 | .crypt => 0x80)
              | .hash =>
                (match cd with
                 | .zero => 0x00
                 | .absorbKey => 0x00
                 | .absorb => 0x01
                 | .ratchet => 0x00
                 | .squeezeKey => 0x00
                 | .squeeze => 0x00
                 | .crypt => 0x00))
           else 0)

/-- R142: Up XORs its flag (with the value of R95) into `S[47]` in Keyed mode only, permutes once, sets PHASE = Up, and its output
is the first bytes of the state after the permutation. -/
def Obligations.UpInjectsItsFlagAndPermutes : Prop :=
  ∀ (d : Session) (cu : Flag),
    (d.up cu).phase = .up ∧ (d.up cu).mode = d.mode ∧
    (∃ S : StateBytes, (d.up cu).S = permute S ∧
      ∀ i, i < 48 → byteAt S i =
        byteAt d.S i ^^^
          (if i = 47 ∧ d.mode = .keyed then
            (match cu with
             | .zero => 0x00
             | .absorbKey => 0x02
             | .absorb => 0x03
             | .ratchet => 0x10
             | .squeezeKey => 0x20
             | .squeeze => 0x40
             | .crypt => 0x80)
           else 0)) ∧
    ∀ n, n ≤ (match d.mode with | .hash => 16 | .keyed => 24) →
      ((d.up cu).out n).length = n ∧
      ∀ i, i < n → ((d.up cu).out n)[i]? = some (byteAt (d.up cu).S i)

/-- R145: the blocks of Split. -/
def Obligations.SplitCutsAtTheRate : Prop :=
  ∀ (X : List Byte) (r : Nat), 1 ≤ r →
    (split X r).length = max 1 ((X.length + r - 1) / r) ∧
    (∀ k, k < (split X r).length →
      (split X r)[k]? = some ((X.drop (k * r)).take (min ((k + 1) * r) X.length - k * r))) ∧
    (split X r).flatten = X ∧ split [] r = [[]] ∧
    (∀ b ∈ (split X r).dropLast, b.length = r) ∧
    (X ≠ [] → ∀ b ∈ split X r, 1 ≤ b.length ∧ b.length ≤ r)

/-- R61, R92: the output of a command that executes has exactly OutLen bytes. -/
def Obligations.OutputHasItsLength : Prop :=
  ∀ (i : Instr) (d d' : Session) (I O : List Byte), I.length = inLen i →
    transaction i d I = .done d' O → O.length = outLen i

/-- R87, R147: an operation split into a first chunk and continuation chunks at multiples of its rate
gives the state and the output of the single operation: absorb, squeeze and both directions of crypt. -/
def Obligations.ContinuationChunksEqualTheWholeOperation : Prop :=
  (∀ (d : Session) (r : Nat) (cd : Flag) (X : List Byte) (Ys : List (List Byte)), 1 ≤ r →
    SplitsAtRate r X Ys →
    Ys.foldl (fun d Y => absorbAny d Y r .zero) (absorbAny d X r cd) =
      absorbAny d (X ++ Ys.flatten) r cd) ∧
  (∀ (d : Session) (cu : Flag) (n : Nat) (ns : List Nat),
    CountsSplitAtRate (squeezeRate d.mode) n ns →
    ns.foldl (fun p k => ((squeezeCont p.1 k).1, p.2 ++ (squeezeCont p.1 k).2)) (squeezeAny d n cu) =
      squeezeAny d (n + ns.sum) cu) ∧
  (∀ (d : Session) (dir : Direction) (cu : Flag) (X : List Byte) (Ys : List (List Byte)),
    SplitsAtRate 24 X Ys →
    Ys.foldl (fun p Y => ((crypt p.1 Y dir .zero).1, p.2 ++ (crypt p.1 Y dir .zero).2))
        (crypt d X dir cu) =
      crypt d (X ++ Ys.flatten) dir cu)

/-- R149: from one session, decrypting what encrypting gave returns the input and leaves the same
session. -/
def Obligations.DecryptInvertsEncrypt : Prop :=
  ∀ (d : Session) (I : List Byte) (cu : Flag),
    crypt d (crypt d I .encrypt cu).2 .decrypt cu = ((crypt d I .encrypt cu).1, I)

/-- R148, R196 (conflict C1): after Crypt, in both directions, the first bytes of the state are the last
block of the CIPHERTEXT. -/
def Obligations.CryptLeavesTheCiphertextInTheState : Prop :=
  ∀ (d : Session) (I : List Byte) (cu : Flag) (last : List Byte),
    (split I 24).getLast? = some last →
    (crypt d I .encrypt cu).1.out last.length =
      (crypt d I .encrypt cu).2.drop (I.length - last.length) ∧
    (crypt d I .decrypt cu).1.out last.length = last

/-- R199 (corner case): a ratchet runs one Up(Ratchet), leaves `S[0..16) = 0`, XORs 0x01 into `S[16]` and
changes no other byte after the permutation. -/
def Obligations.RatchetZeroesTheFirstBytes : Prop :=
  ∀ (d d' : Session) (I O : List Byte), transaction .ratchet d I = .done d' O →
    d'.phase = .down ∧ d'.mode = d.mode ∧
    ∀ i, i < 48 →
      byteAt d'.S i =
        (if i < 16 then 0 else if i = 16 then byteAt (d.up .ratchet).S i ^^^ 0x01
         else byteAt (d.up .ratchet).S i)

/-- R220 to R223: restoring the image CTX_SAVE gave restores the saved session, whatever session is there. -/
def Obligations.SavedContextRestoresTheSession : Prop :=
  ∀ (d d' e : Session) (I O : List Byte), transaction .ctxSave d I = .done d' O →
    d' = d ∧ transaction .ctxRestore e O = .done d []

/-- R116: χ is its parallel form, and so is every other order of the three updates. -/
def Obligations.ChiIsItsParallelFormInEveryOrder : Prop :=
  ∀ p : Planes,
    chi p = chiParallel p ∧
    chiC (chiB (chiA p)) = chiParallel p ∧ chiB (chiC (chiA p)) = chiParallel p ∧
    chiC (chiA (chiB p)) = chiParallel p ∧ chiA (chiC (chiB p)) = chiParallel p ∧
    chiB (chiA (chiC p)) = chiParallel p ∧ chiA (chiB (chiC p)) = chiParallel p

/-- R118: ρ-east on plane C is the byte table T. -/
def Obligations.RhoEastIsTheByteTable : Prop :=
  rhoEastTable = [11, 8, 9, 10, 15, 12, 13, 14, 3, 0, 1, 2, 7, 4, 5, 6] ∧
  (∀ j k, j < 4 → k < 4 →
    rhoEastTable[4 * j + k]? = some (4 * ((j + 2) % 4) + (k + 3) % 4)) ∧
  ∀ (p : Planes) (i t : Nat), rhoEastTable[i]? = some t →
    (planeBytes (rhoEast p).C)[i]? = (planeBytes p.C)[t]?

/-- R124: the worked example of one round. -/
def Obligations.OneRoundFromZero : Prop :=
  let z : Planes := { A := #v[0, 0, 0, 0], B := #v[0, 0, 0, 0], C := #v[0, 0, 0, 0] }
  let a : Planes := { A := #v[0x58, 0, 0, 0], B := #v[0, 0, 0, 0], C := #v[0, 0, 0, 0] }
  theta z = z ∧ rhoWest z = z ∧ iota 0x58 z = a ∧
  chi a = { A := #v[0x58, 0, 0, 0], B := #v[0x58, 0, 0, 0], C := #v[0, 0, 0, 0] } ∧
  permRound z 0x00000058 =
    { A := #v[0x00000058, 0, 0, 0], B := #v[0x000000B0, 0, 0, 0], C := #v[0, 0, 0, 0] }

/-- R122: 384 permutations of the all-zero state give the plane words of 95_test_vectors.md §1.1. -/
def Obligations.PermutationConformanceVector : Prop :=
  planesOf (permuteTimes 384 zeroBytes) =
    { A := #v[0xfe04fab0, 0x42d5d8ce, 0x29c62ee7, 0x2a7ae5cf]
      B := #v[0xea36eba3, 0x14649e0a, 0xfe12521b, 0xfe2eff69]
      C := #v[0xf1826ca5, 0xfc4c41e0, 0x1597394f, 0xeb092faf] }

/-- R21: the planes and the bytes are two views of one state: byte `i` is bits
`[8*(i mod 4)+7 : 8*(i mod 4)]` of lane `(i mod 16) div 4` of plane `i div 16` (A, B, C). -/
def Obligations.PlanesAndBytesAgree : Prop :=
  (∀ (S : StateBytes) (i : Nat) (w : Lane), i < 48 →
    (let p := planesOf S
     if i / 16 = 0 then p.A else if i / 16 = 1 then p.B else p.C)[(i % 16) / 4]? = some w →
    S[i]? = some (w.extractLsb' (8 * (i % 4)) 8)) ∧
  (∀ S : StateBytes, bytesOf (planesOf S) = S) ∧ (∀ p : Planes, planesOf (bytesOf p) = p)

/-- R191: INIT_KEYED is accepted for the legal key and id lengths and raises KEY_LENGTH for every other
pair; the counter length is never checked. (CUR and IN_NEED of `RunRecord.empty` are 0: log 9, the model's choice.) -/
def Obligations.KeyLengthLimits : Prop :=
  ∀ (klen idlen clen : Nat) (s : State), s.ctl = .idle →
    (1 ≤ klen ∧ klen ≤ 43 ∧ idlen ≤ 43 - klen →
      exec (.initKeyed klen idlen clen) s =
        .next { s with
          ctl := .run,
          run := { cur := encode (.initKeyed klen idlen clen), inNeed := klen + idlen + clen, inBuf := [],
                   executed := false, outBuf := [], outLeft := 0, dinHeld := 0, outRest := [] } }) ∧
    (klen = 0 ∨ 44 ≤ klen + idlen →
      exec (.initKeyed klen idlen clen) s =
        .next { s with ctl := .fault, cause := .keyLength,
                       faultInfo := encode (.initKeyed klen idlen clen), run := RunRecord.empty })

/-- The reset state meets the invariant (with the parameters of log 1 and CUR = 0 of log 9, the model's
choices). -/
def Obligations.ResetMeetsTheInvariant : Prop := State.reset.Inv

/-- Every step keeps the invariant (R26 to R28, R57 to R65, R250): a RUN record only in RUN, agreeing
with its command, CAUSE and FAULT_INFO set only in FAULT. (That CUR and IN_NEED are 0 outside RUN is log 9,
the model's choice.) -/
def Obligations.StepKeepsTheInvariant : Prop :=
  ∀ s t : State, s.Inv → step s = .next t → t.Inv

/-- From a state with the invariant every event inside the window has a next state: no command is
refused, none stops the machine. -/
def Obligations.StepNeverStopsInsideTheWindow : Prop :=
  ∀ s : State, s.Inv → (∀ e, s.pending.head? = some e → inWindow s.params e = true) →
    ∃ t, step s = .next t

/-- R22, R171: MODE changes only at reset or by INIT_HASH, INIT_KEYED or CTX_RESTORE. -/
def Obligations.OnlySessionCommandsWriteMode : Prop :=
  ∀ s t : State, step s = .next t → t.session.mode ≠ s.session.mode →
    s.resetNext ∨
    ∃ i, (i = .initHash ∨ (∃ k d c, i = .initKeyed k d c) ∨ i = .ctxRestore) ∧
      (s.ctl = .run ∧ s.run.cur = encode i ∨ s.ctl = .idle ∧ s.written = some (.cmd, encode i))

/-- R20, R67, R262: S, MODE and PHASE change only at reset or when a command that had not executed
executes, at its CMD write or in RUN with all its input received. -/
def Obligations.SessionChangesOnlyWhenACommandExecutes : Prop :=
  ∀ s t : State, step s = .next t → t.session ≠ s.session →
    s.resetNext ∨
    (s.ctl = .run ∧ s.run.executed = false ∧ s.run.inNeed ≤ s.run.inBuf.length + 1 ∧
      (t.run.executed = true ∨ t.ctl = .idle)) ∨
    (s.ctl = .idle ∧ ∃ i, s.written = some (.cmd, encode i) ∧
      decode s.params.ctxPort (encode i) = .command i ∧ inLen i = 0)

/-- R22, R23, R40: MODE and PHASE after each command's transaction. -/
def Obligations.ModeAndPhaseAfterEachCommand : Prop :=
  ∀ (i : Instr) (d d' : Session) (I O : List Byte), transaction i d I = .done d' O →
    match i with
    | .initHash => d'.mode = .hash ∧ d'.phase = .up
    | .initKeyed _ _ _ => d'.mode = .keyed ∧ d'.phase = .down
    | .absorb _ _ => d'.mode = d.mode ∧ d'.phase = .down
    | .squeeze len cont =>
      d'.mode = d.mode ∧ (if cont = true ∧ len = 0 then d' = d else d'.phase = .up)
    | .squeezeKey len cont =>
      d'.mode = d.mode ∧ (if cont = true ∧ len = 0 then d' = d else d'.phase = .up)
    | .encrypt _ _ => d'.mode = d.mode ∧ d'.phase = .down
    | .decrypt _ _ => d'.mode = d.mode ∧ d'.phase = .down
    | .ratchet => d'.mode = d.mode ∧ d'.phase = .down
    | .permute => d'.mode = d.mode ∧ d'.phase = d.phase
    | .ctxSave => d' = d
    | .ctxRestore =>
      d'.mode = (if (I[48]?.getD 0).getLsbD 0 then .keyed else .hash) ∧
      d'.phase = (if (I[48]?.getD 0).getLsbD 1 then .up else .down)

/-- R66, R17 on the reference implementation REF (no latency, buffers that hold the command's bytes): a
host that presents a command, writes its input and reads its output reads exactly the transaction's
output, and the engine is IDLE again with exactly the transaction's session. -/
def Obligations.RefServiceGivesTheTransaction : Prop :=
  ∀ (s : State) (i : Instr) (I : List Byte) (d : Session) (O : List Byte) (rest : List HostEvent),
    s.Inv → s.ctl = .idle → s.params.permLatency = 0 → inLen i ≤ s.params.dinDepth →
    outLen i ≤ s.params.doutDepth → i.WellFormed →
    admitted s.params.ctxPort s.session.mode i = true → I.length = inLen i →
    transaction i s.session I = .done d O →
    s.pending = serveRef s.params i I (outLen i) ++ rest →
    Host.Core.run Sys2Proof.core (1 + inLen i + outLen i) s =
      .next { s with session := d, pending := rest, replies := s.replies ++ O.map zext32 }

/-- R66, R17, R290 for every legal DIN_DEPTH, DOUT_DEPTH and PERM_LATENCY: with an engine step after each
access the host again reads exactly the transaction's output, and the engine is IDLE with exactly the
transaction's session. -/
def Obligations.PacedServiceGivesTheTransaction : Prop :=
  ∀ (s : State) (i : Instr) (I : List Byte) (d : Session) (O : List Byte) (rest : List HostEvent),
    s.Inv → s.ctl = .idle → i.WellFormed →
    admitted s.params.ctxPort s.session.mode i = true → I.length = inLen i →
    transaction i s.session I = .done d O →
    s.pending = servePaced s.params i I (outLen i) ++ rest →
    Host.Core.run Sys2Proof.core (2 + 2 * inLen i + 2 * outLen i) s =
      .next { s with session := d, pending := rest, replies := s.replies ++ O.map zext32 }
end

