-- ==== Sys2Proof/Laws/State.lean ====
section
/-! SUPPORT. One lemma per field per update of the state, each true by rfl. -/

namespace Sys2Proof.Machine

/-! ### State.raise -/

@[simp] theorem State.raise_params (s : State) (c : Cause) (info : Word) :
    (s.raise c info).params = s.params := rfl
@[simp] theorem State.raise_session (s : State) (c : Cause) (info : Word) :
    (s.raise c info).session = s.session := rfl
@[simp] theorem State.raise_ctl (s : State) (c : Cause) (info : Word) :
    (s.raise c info).ctl = .fault := rfl
@[simp] theorem State.raise_run (s : State) (c : Cause) (info : Word) :
    (s.raise c info).run = RunRecord.empty := rfl
@[simp] theorem State.raise_cause (s : State) (c : Cause) (info : Word) :
    (s.raise c info).cause = c := rfl
@[simp] theorem State.raise_faultInfo (s : State) (c : Cause) (info : Word) :
    (s.raise c info).faultInfo = info := rfl
@[simp] theorem State.raise_pending (s : State) (c : Cause) (info : Word) :
    (s.raise c info).pending = s.pending := rfl
@[simp] theorem State.raise_replies (s : State) (c : Cause) (info : Word) :
    (s.raise c info).replies = s.replies := rfl
@[simp] theorem State.raise_fresh (s : State) (c : Cause) (info : Word) :
    (s.raise c info).fresh = s.fresh := rfl

/-! ### State.engineReset -/

@[simp] theorem State.engineReset_params (s : State) :
    (s.engineReset).params = s.params := rfl
@[simp] theorem State.engineReset_session (s : State) :
    (s.engineReset).session = Session.reset := rfl
@[simp] theorem State.engineReset_ctl (s : State) :
    (s.engineReset).ctl = .idle := rfl
@[simp] theorem State.engineReset_run (s : State) :
    (s.engineReset).run = RunRecord.empty := rfl
@[simp] theorem State.engineReset_cause (s : State) :
    (s.engineReset).cause = .none := rfl
@[simp] theorem State.engineReset_faultInfo (s : State) :
    (s.engineReset).faultInfo = 0 := rfl
@[simp] theorem State.engineReset_pending (s : State) :
    (s.engineReset).pending = s.pending := rfl
@[simp] theorem State.engineReset_replies (s : State) :
    (s.engineReset).replies = s.replies := rfl
@[simp] theorem State.engineReset_fresh (s : State) :
    (s.engineReset).fresh = s.fresh := rfl

/-! ### State.reply -/

@[simp] theorem State.reply_params (s : State) (v : Word) :
    (s.reply v).params = s.params := rfl
@[simp] theorem State.reply_session (s : State) (v : Word) :
    (s.reply v).session = s.session := rfl
@[simp] theorem State.reply_ctl (s : State) (v : Word) :
    (s.reply v).ctl = s.ctl := rfl
@[simp] theorem State.reply_run (s : State) (v : Word) :
    (s.reply v).run = s.run := rfl
@[simp] theorem State.reply_cause (s : State) (v : Word) :
    (s.reply v).cause = s.cause := rfl
@[simp] theorem State.reply_faultInfo (s : State) (v : Word) :
    (s.reply v).faultInfo = s.faultInfo := rfl
@[simp] theorem State.reply_pending (s : State) (v : Word) :
    (s.reply v).pending = s.pending := rfl
@[simp] theorem State.reply_replies (s : State) (v : Word) :
    (s.reply v).replies = s.replies ++ [v] := rfl
@[simp] theorem State.reply_fresh (s : State) (v : Word) :
    (s.reply v).fresh = s.fresh := rfl

/-! ### State.accept -/

@[simp] theorem State.accept_params (s : State) (i : Instr) :
    (s.accept i).params = s.params := rfl
@[simp] theorem State.accept_session (s : State) (i : Instr) :
    (s.accept i).session = s.session := rfl
@[simp] theorem State.accept_ctl (s : State) (i : Instr) :
    (s.accept i).ctl = .run := rfl
@[simp] theorem State.accept_run (s : State) (i : Instr) :
    (s.accept i).run = { RunRecord.empty with cur := encode i, inNeed := inLen i, outLeft := outLen i } := rfl
@[simp] theorem State.accept_cause (s : State) (i : Instr) :
    (s.accept i).cause = s.cause := rfl
@[simp] theorem State.accept_faultInfo (s : State) (i : Instr) :
    (s.accept i).faultInfo = s.faultInfo := rfl
@[simp] theorem State.accept_pending (s : State) (i : Instr) :
    (s.accept i).pending = s.pending := rfl
@[simp] theorem State.accept_replies (s : State) (i : Instr) :
    (s.accept i).replies = s.replies := rfl
@[simp] theorem State.accept_fresh (s : State) (i : Instr) :
    (s.accept i).fresh = s.fresh := rfl

/-! ### State.drainIn -/

@[simp] theorem State.drainIn_params (s : State) :
    (s.drainIn).params = s.params := rfl
@[simp] theorem State.drainIn_session (s : State) :
    (s.drainIn).session = s.session := rfl
@[simp] theorem State.drainIn_ctl (s : State) :
    (s.drainIn).ctl = s.ctl := rfl
@[simp] theorem State.drainIn_run (s : State) :
    (s.drainIn).run = { s.run with dinHeld := 0 } := rfl
@[simp] theorem State.drainIn_cause (s : State) :
    (s.drainIn).cause = s.cause := rfl
@[simp] theorem State.drainIn_faultInfo (s : State) :
    (s.drainIn).faultInfo = s.faultInfo := rfl
@[simp] theorem State.drainIn_pending (s : State) :
    (s.drainIn).pending = s.pending := rfl
@[simp] theorem State.drainIn_replies (s : State) :
    (s.drainIn).replies = s.replies := rfl
@[simp] theorem State.drainIn_fresh (s : State) :
    (s.drainIn).fresh = s.fresh := rfl

/-! ### State.takeIn -/

@[simp] theorem State.takeIn_params (s : State) (b : Byte) :
    (s.takeIn b).params = s.params := rfl
@[simp] theorem State.takeIn_session (s : State) (b : Byte) :
    (s.takeIn b).session = s.session := rfl
@[simp] theorem State.takeIn_ctl (s : State) (b : Byte) :
    (s.takeIn b).ctl = s.ctl := rfl
@[simp] theorem State.takeIn_run (s : State) (b : Byte) :
    (s.takeIn b).run = { s.run with inBuf := s.run.inBuf ++ [b], dinHeld := s.run.dinHeld + 1 } := rfl
@[simp] theorem State.takeIn_cause (s : State) (b : Byte) :
    (s.takeIn b).cause = s.cause := rfl
@[simp] theorem State.takeIn_faultInfo (s : State) (b : Byte) :
    (s.takeIn b).faultInfo = s.faultInfo := rfl
@[simp] theorem State.takeIn_pending (s : State) (b : Byte) :
    (s.takeIn b).pending = s.pending := rfl
@[simp] theorem State.takeIn_replies (s : State) (b : Byte) :
    (s.takeIn b).replies = s.replies := rfl
@[simp] theorem State.takeIn_fresh (s : State) (b : Byte) :
    (s.takeIn b).fresh = s.fresh := rfl

/-! ### State.refillOut -/

@[simp] theorem State.refillOut_params (s : State) : s.refillOut.params = s.params := rfl
@[simp] theorem State.refillOut_session (s : State) : s.refillOut.session = s.session := rfl
@[simp] theorem State.refillOut_ctl (s : State) : s.refillOut.ctl = s.ctl := rfl
@[simp] theorem State.refillOut_cause (s : State) : s.refillOut.cause = s.cause := rfl
@[simp] theorem State.refillOut_faultInfo (s : State) : s.refillOut.faultInfo = s.faultInfo := rfl
@[simp] theorem State.refillOut_pending (s : State) : s.refillOut.pending = s.pending := rfl
@[simp] theorem State.refillOut_replies (s : State) : s.refillOut.replies = s.replies := rfl
@[simp] theorem State.refillOut_fresh (s : State) : s.refillOut.fresh = s.fresh := rfl
@[simp] theorem State.refillOut_run_cur (s : State) : s.refillOut.run.cur = s.run.cur := rfl
@[simp] theorem State.refillOut_run_inNeed (s : State) : s.refillOut.run.inNeed = s.run.inNeed := rfl
@[simp] theorem State.refillOut_run_inBuf (s : State) : s.refillOut.run.inBuf = s.run.inBuf := rfl
@[simp] theorem State.refillOut_run_executed (s : State) : s.refillOut.run.executed = s.run.executed := rfl
@[simp] theorem State.refillOut_run_outLeft (s : State) : s.refillOut.run.outLeft = s.run.outLeft := rfl
@[simp] theorem State.refillOut_run_dinHeld (s : State) : s.refillOut.run.dinHeld = s.run.dinHeld := rfl
@[simp] theorem State.refillOut_run_outBuf (s : State) :
    s.refillOut.run.outBuf =
      s.run.outBuf ++ s.run.outRest.take (s.params.doutDepth - s.run.outBuf.length) := rfl
@[simp] theorem State.refillOut_run_outRest (s : State) :
    s.refillOut.run.outRest = s.run.outRest.drop (s.params.doutDepth - s.run.outBuf.length) := rfl

/-! ### RunRecord.empty -/

@[simp] theorem RunRecord.empty_cur : RunRecord.empty.cur = 0 := rfl
@[simp] theorem RunRecord.empty_inNeed : RunRecord.empty.inNeed = 0 := rfl
@[simp] theorem RunRecord.empty_inBuf : RunRecord.empty.inBuf = [] := rfl
@[simp] theorem RunRecord.empty_executed : RunRecord.empty.executed = false := rfl
@[simp] theorem RunRecord.empty_outBuf : RunRecord.empty.outBuf = [] := rfl
@[simp] theorem RunRecord.empty_outLeft : RunRecord.empty.outLeft = 0 := rfl
@[simp] theorem RunRecord.empty_dinHeld : RunRecord.empty.dinHeld = 0 := rfl
@[simp] theorem RunRecord.empty_outRest : RunRecord.empty.outRest = [] := rfl

/-! ### Session.reset, Session.down, Session.up -/

@[simp] theorem Session.reset_S : Session.reset.S = zeroBytes := rfl
@[simp] theorem Session.reset_mode : Session.reset.mode = .hash := rfl
@[simp] theorem Session.reset_phase : Session.reset.phase = .up := rfl
@[simp] theorem Session.down_mode (d : Session) (X : List Byte) (cd : Flag) :
    (d.down X cd).mode = d.mode := rfl
@[simp] theorem Session.down_phase (d : Session) (X : List Byte) (cd : Flag) :
    (d.down X cd).phase = .down := rfl
@[simp] theorem Session.up_mode (d : Session) (cu : Flag) : (d.up cu).mode = d.mode := rfl
@[simp] theorem Session.up_phase (d : Session) (cu : Flag) : (d.up cu).phase = .up := rfl

end Sys2Proof.Machine
end

