-- ==== Sys2Proof/Laws/Bytes.lean ====
section
/-! SUPPORT. The laws of reading and XORing state bytes, of lanes and bytes, and of Split. -/

namespace Sys2Proof.Machine

theorem byteAt_of_lt (S : StateBytes) (i : Nat) (h : i < 48) : byteAt S i = S[i] := by
  simp [byteAt, h]

/-- Two states with equal bytes are equal. -/
theorem bytes_ext (S T : StateBytes) (h : ∀ i, i < 48 → byteAt S i = byteAt T i) : S = T := by
  ext i hi
  have := h i hi
  rw [byteAt_of_lt S i hi, byteAt_of_lt T i hi] at this
  rw [this]

/-- Reading after an XOR of one byte. -/
theorem byteAt_xorAt (S : StateBytes) (i j : Nat) (v : Byte) (hj : j < 48) :
    byteAt (xorAt S i v) j = if i = j then byteAt S j ^^^ v else byteAt S j := by
  rw [byteAt_of_lt _ j hj, byteAt_of_lt _ j hj]
  unfold xorAt
  rw [Vector.getElem_setIfInBounds hj]
  split
  · subst i; rw [byteAt_of_lt _ j hj]
  · rfl

/-- XORing 0 into a byte changes nothing. -/
theorem xorAt_zero (S : StateBytes) (i : Nat) : xorAt S i 0 = S := by
  refine bytes_ext _ _ fun j hj => ?_
  rw [byteAt_xorAt _ _ _ _ hj]
  simp

/-- Reading after a block is XORed in at byte `i`. -/
theorem byteAt_xorBlock (X : List Byte) (S : StateBytes) (i j : Nat) (hj : j < 48) :
    byteAt (xorBlock S i X) j =
      byteAt S j ^^^ (if i ≤ j then X[j - i]?.getD 0 else 0) := by
  induction X generalizing S i with
  | nil => simp [xorBlock]
  | cons x xs ih =>
    rw [xorBlock, ih, byteAt_xorAt _ _ _ _ hj]
    rcases Nat.lt_trichotomy i j with h | h | h
    · obtain ⟨k, rfl⟩ := Nat.exists_eq_add_of_lt h
      have h1 : i + k + 1 - i = k + 1 := by omega
      have h2 : i + k + 1 - (i + 1) = k := by omega
      simp [h1, h2, show i ≤ i + k + 1 by omega, show i ≠ i + k + 1 by omega,
        show i + 1 ≤ i + k + 1 by omega]
    · subst h; simp
    · simp [show ¬ i ≤ j by omega, show ¬ i + 1 ≤ j by omega, show i ≠ j by omega]

@[simp] theorem byteAt_zeroBytes (i : Nat) : byteAt zeroBytes i = 0 := by
  unfold byteAt zeroBytes
  by_cases h : i < 48 <;> simp [h]

/-! ### The bytes an Up returns -/

@[simp] theorem Session.length_out (d : Session) (n : Nat) : (d.out n).length = min n 48 := by
  simp [Session.out]

theorem Session.getElem?_out (d : Session) (n i : Nat) (hi : i < n) (h : i < 48) :
    (d.out n)[i]? = some (byteAt d.S i) := by
  rw [Session.out, List.getElem?_take_of_lt hi, byteAt_of_lt _ _ h]
  simp [h]

@[simp] theorem length_xorBytes (X Y : List Byte) :
    (xorBytes X Y).length = min X.length Y.length := by
  simp [xorBytes]

/-- XORing the same bytes twice gives the first list back. -/
theorem xorBytes_xorBytes (X Y : List Byte) (h : X.length ≤ Y.length) :
    xorBytes (xorBytes X Y) Y = X := by
  induction X generalizing Y with
  | nil => simp [xorBytes]
  | cons x xs ih =>
    cases Y with
    | nil => simp at h
    | cons y ys =>
      simp only [xorBytes, List.zipWith_cons_cons, List.cons.injEq] at ih ⊢
      exact ⟨by rw [BitVec.xor_assoc, BitVec.xor_self, BitVec.xor_zero],
        ih ys (by simpa using h)⟩

/-! ### Split -/

/-- The first block of a split, and the split of the rest. -/
theorem split_step (X : List Byte) (r : Nat) (hr : 1 ≤ r) :
    split X r = if X.length ≤ r then [X] else X.take r :: split (X.drop r) r := by
  split
  · rename_i h
    have hm : max 1 ((X.length + r - 1) / r) = 1 := by
      rcases Nat.eq_zero_or_pos X.length with h0 | h0
      · have : (X.length + r - 1) / r = 0 := by
          rw [h0]; exact Nat.div_eq_of_lt (by omega)
        rw [this]; rfl
      · have : (X.length + r - 1) / r = 1 := by
          apply Nat.div_eq_of_lt_le <;> omega
        rw [this]; rfl
    simp [Machine.split, hm, List.take_of_length_le h]
  · rename_i h
    have hq : (X.length + r - 1) / r = (X.length - r + r - 1) / r + 1 := by
      rw [← Nat.add_div_right _ (by omega : 0 < r)]; congr 1; omega
    have hpos : 1 ≤ (X.length - r + r - 1) / r := by
      rw [Nat.le_div_iff_mul_le (by omega)]; omega
    unfold Machine.split
    rw [List.length_drop, Nat.max_eq_right hpos, hq, Nat.max_eq_right (by omega),
      List.range_succ_eq_map]
    simp only [List.map_cons, Nat.zero_mul, List.drop_zero, List.map_map, List.cons.injEq, true_and]
    refine List.map_congr_left fun k _ => ?_
    simp [List.drop_drop, Nat.succ_mul, Nat.add_comm]

theorem split_of_le (X : List Byte) (r : Nat) (hr : 1 ≤ r) (h : X.length ≤ r) :
    split X r = [X] := by
  rw [split_step X r hr, if_pos h]

theorem split_of_lt (X : List Byte) (r : Nat) (hr : 1 ≤ r) (h : r < X.length) :
    split X r = X.take r :: split (X.drop r) r := by
  rw [split_step X r hr, if_neg (by omega)]

/-- No input is split into no blocks. -/
theorem split_ne_nil (X : List Byte) (r : Nat) : split X r ≠ [] := by
  intro h
  have := congrArg List.length h
  simp [Machine.split] at this

/-- Two inputs in a row split alike when the first is a whole number of blocks (R87). -/
theorem split_append (X Y : List Byte) (r : Nat) (hr : 1 ≤ r) (hX : X ≠ []) (hd : r ∣ X.length)
    (hY : Y ≠ []) : split (X ++ Y) r = split X r ++ split Y r := by
  induction hn : X.length using Nat.strong_induction_on generalizing X with
  | _ n ih =>
    have hYl := List.length_pos_iff.2 hY
    have hXl := List.length_pos_iff.2 hX
    have hge : r ≤ X.length := Nat.le_of_dvd hXl hd
    rw [split_of_lt (X ++ Y) r hr (by rw [List.length_append]; omega)]
    rcases Nat.lt_or_ge r X.length with hl | hl
    · have hne : X.drop r ≠ [] := by
        intro h; have := congrArg List.length h; rw [List.length_drop] at this; simp at this; omega
      rw [split_of_lt X r hr hl, List.take_append_of_le_length hge,
        List.drop_append_of_le_length hge,
        ih (X.drop r).length (by rw [List.length_drop]; omega) _ hne
          (by simpa using Nat.dvd_sub hd (Nat.dvd_refl r)) rfl]
      rfl
    · have : X.length = r := by omega
      rw [split_of_le X r hr hl, ← this]
      simp

/-! ### Bytes of lanes -/

/-- The bytes of a little-endian lane (R12). -/
theorem extract_le32 (b0 b1 b2 b3 : Byte) :
    (le32 b0 b1 b2 b3).extractLsb' 0 8 = b0 ∧ (le32 b0 b1 b2 b3).extractLsb' 8 8 = b1 ∧
    (le32 b0 b1 b2 b3).extractLsb' 16 8 = b2 ∧ (le32 b0 b1 b2 b3).extractLsb' 24 8 = b3 := by
  refine ⟨?_, ?_, ?_, ?_⟩ <;> apply BitVec.eq_of_getLsbD_eq <;> intro j hj <;> interval_cases j <;>
    simp [le32]

/-- Byte `k` of lane `j` of the plane at `base` is state byte `base + 4j + k` (R21). -/
theorem extract_laneAt (S : StateBytes) (base : Nat) (j : Fin 4) (k : Nat) (hk : k < 4) :
    (laneAt S base j).extractLsb' (8 * k) 8 = byteAt S (base + 4 * j + k) := by
  obtain ⟨h0, h1, h2, h3⟩ := extract_le32 (byteAt S (base + 4 * j)) (byteAt S (base + 4 * j + 1))
    (byteAt S (base + 4 * j + 2)) (byteAt S (base + 4 * j + 3))
  interval_cases k
  · exact h0
  · exact h1
  · exact h2
  · exact h3

/-! ### The window -/

/-- An offset of the window is found at its bus address (R50). -/
theorem windowOffset_base (p : Params) (k : Nat) (h : k < 256) :
    windowOffset p (p.base + k) = some (BitVec.ofNat 8 k) := by
  simp [windowOffset, h]

end Sys2Proof.Machine
end

