-- ==== Sys2Proof/Laws/Duplex.lean ====
section
/-! SUPPORT. The laws of the duplex primitives: one block at a time, MODE and PHASE, output lengths. -/

namespace Sys2Proof.Machine

/-! ### AbsorbAny -/

/-- The Up(Zero) before a block that does not find PHASE = Up (R144). -/
theorem absorbBlocks_cons (d : Session) (cd : Flag) (blk : List Byte) (rest : List (List Byte)) :
    absorbBlocks d cd (blk :: rest) =
      absorbBlocks ((match d.phase with
                     | .up => d
                     | .down => d.up .zero).down blk cd) .zero rest := rfl

theorem absorbBlocks_append (d : Session) (cd : Flag) (bs cs : List (List Byte)) (h : bs ≠ []) :
    absorbBlocks d cd (bs ++ cs) = absorbBlocks (absorbBlocks d cd bs) .zero cs := by
  induction bs generalizing d cd with
  | nil => exact absurd rfl h
  | cons b bs ih =>
    rw [List.cons_append, absorbBlocks_cons, absorbBlocks_cons]
    cases bs with
    | nil => rfl
    | cons b' bs' => exact ih _ _ (by simp)

@[simp] theorem absorbBlocks_mode (d : Session) (cd : Flag) (bs : List (List Byte)) :
    (absorbBlocks d cd bs).mode = d.mode := by
  induction bs generalizing d cd with
  | nil => rfl
  | cons b bs ih =>
    rw [absorbBlocks_cons, ih, Session.down_mode]
    cases d.phase <;> rfl

theorem absorbBlocks_phase (d : Session) (cd : Flag) (bs : List (List Byte)) (h : bs ≠ []) :
    (absorbBlocks d cd bs).phase = .down := by
  induction bs generalizing d cd with
  | nil => exact absurd rfl h
  | cons b bs ih =>
    rw [absorbBlocks_cons]
    cases bs with
    | nil => rfl
    | cons b' bs' => exact ih _ _ (by simp)

@[simp] theorem absorbAny_mode (d : Session) (X : List Byte) (r : Nat) (cd : Flag) :
    (absorbAny d X r cd).mode = d.mode := absorbBlocks_mode _ _ _

@[simp] theorem absorbAny_phase (d : Session) (X : List Byte) (r : Nat) (cd : Flag) :
    (absorbAny d X r cd).phase = .down := absorbBlocks_phase _ _ _ (split_ne_nil X r)

/-! ### SqueezeAny and SqueezeCont -/

theorem squeezeRate_pos (m : Mode) : 0 < squeezeRate m := by cases m <;> decide

theorem squeezeRate_le (m : Mode) : squeezeRate m ≤ 24 := by cases m <;> decide

/-- One turn of the squeeze loop. -/
theorem squeezeLoop_succ (fuel : Nat) (d : Session) (need : Nat) (h : need ≠ 0) :
    squeezeLoop (fuel + 1) d need =
      ((squeezeLoop fuel ((d.down [] .zero).up .zero) (need - min need (squeezeRate d.mode))).1,
       ((d.down [] .zero).up .zero).out (min need (squeezeRate d.mode)) ++
         (squeezeLoop fuel ((d.down [] .zero).up .zero)
           (need - min need (squeezeRate d.mode))).2) := by
  simp [squeezeLoop, h]

@[simp] theorem squeezeLoop_zero (fuel : Nat) (d : Session) : squeezeLoop fuel d 0 = (d, []) := by
  cases fuel <;> simp [squeezeLoop]

/-- More fuel than bytes changes nothing. -/
theorem squeezeLoop_fuel (fuel : Nat) (d : Session) (need : Nat) (h : need ≤ fuel) :
    squeezeLoop fuel d need = squeezeLoop need d need := by
  induction fuel using Nat.strong_induction_on generalizing d need with
  | _ fuel ih =>
    rcases Nat.eq_zero_or_pos need with h0 | h0
    · subst h0; simp
    · obtain ⟨f, rfl⟩ : ∃ f, fuel = f + 1 := ⟨fuel - 1, by omega⟩
      obtain ⟨n, rfl⟩ : ∃ n, need = n + 1 := ⟨need - 1, by omega⟩
      have hr := squeezeRate_pos d.mode
      have hle : n + 1 - min (n + 1) (squeezeRate d.mode) ≤ n := by omega
      rw [squeezeLoop_succ _ _ _ (by omega), squeezeLoop_succ _ _ _ (by omega),
        ih f (by omega) _ _ (by omega)]
      rcases Nat.lt_or_ge n f with h' | h'
      · rw [ih n (by omega) _ _ hle]
      · rw [show n = f by omega, ih f (by omega) _ _ (by omega)]

/-- SqueezeCont, one block at a time (R147). -/
theorem squeezeCont_step (d : Session) (n : Nat) (h : n ≠ 0) :
    squeezeCont d n =
      ((squeezeCont ((d.down [] .zero).up .zero) (n - min n (squeezeRate d.mode))).1,
       ((d.down [] .zero).up .zero).out (min n (squeezeRate d.mode)) ++
         (squeezeCont ((d.down [] .zero).up .zero) (n - min n (squeezeRate d.mode))).2) := by
  obtain ⟨k, rfl⟩ : ∃ k, n = k + 1 := ⟨n - 1, by omega⟩
  have hr := squeezeRate_pos d.mode
  unfold squeezeCont
  rw [squeezeLoop_succ _ _ _ h, squeezeLoop_fuel k _ _ (by omega)]

@[simp] theorem squeezeCont_zero (d : Session) : squeezeCont d 0 = (d, []) := rfl

/-- SqueezeAny is an Up and a SqueezeCont (R146, R147). -/
theorem squeezeAny_eq (d : Session) (n : Nat) (cu : Flag) :
    squeezeAny d n cu =
      ((squeezeCont (d.up cu) (n - min n (squeezeRate d.mode))).1,
       (d.up cu).out (min n (squeezeRate d.mode)) ++
         (squeezeCont (d.up cu) (n - min n (squeezeRate d.mode))).2) := rfl

/-- SqueezeCont keeps MODE, gives exactly `n` bytes, and ends in Up unless `n = 0`. -/
theorem squeezeCont_spec (d : Session) (n : Nat) :
    (squeezeCont d n).1.mode = d.mode ∧ (squeezeCont d n).2.length = n ∧
      (n ≠ 0 ∨ d.phase = .up → (squeezeCont d n).1.phase = .up) := by
  induction n using Nat.strong_induction_on generalizing d with
  | _ n ih =>
    rcases Nat.eq_zero_or_pos n with h0 | h0
    · subst h0; simp
    · have hr := squeezeRate_pos d.mode
      have hr' := squeezeRate_le d.mode
      obtain ⟨h1, h2, h3⟩ :=
        ih (n - min n (squeezeRate d.mode)) (by omega) ((d.down [] .zero).up .zero)
      rw [squeezeCont_step d n (by omega)]
      refine ⟨by simpa using h1, ?_, fun _ => h3 (.inr rfl)⟩
      simp only [List.length_append, Session.length_out, h2]
      omega

/-- SqueezeAny keeps MODE, ends in Up and gives exactly `n` bytes (R146). -/
theorem squeezeAny_spec (d : Session) (n : Nat) (cu : Flag) :
    (squeezeAny d n cu).1.mode = d.mode ∧ (squeezeAny d n cu).1.phase = .up ∧
      (squeezeAny d n cu).2.length = n := by
  have hr' := squeezeRate_le d.mode
  obtain ⟨h1, h2, h3⟩ := squeezeCont_spec (d.up cu) (n - min n (squeezeRate d.mode))
  rw [squeezeAny_eq]
  refine ⟨by simpa using h1, h3 (.inr rfl), ?_⟩
  simp only [List.length_append, Session.length_out, h2]
  omega

/-- SqueezeCont of a whole number of blocks and then more (R87, R147). -/
theorem squeezeCont_append (d : Session) (n m : Nat) (hn : squeezeRate d.mode ∣ n) :
    squeezeCont d (n + m) =
      ((squeezeCont (squeezeCont d n).1 m).1,
       (squeezeCont d n).2 ++ (squeezeCont (squeezeCont d n).1 m).2) := by
  induction n using Nat.strong_induction_on generalizing d with
  | _ n ih =>
    rcases Nat.eq_zero_or_pos n with h0 | h0
    · subst h0; simp
    · have hr := squeezeRate_pos d.mode
      have hle : squeezeRate d.mode ≤ n := Nat.le_of_dvd h0 hn
      rw [squeezeCont_step d n (by omega), squeezeCont_step d (n + m) (by omega),
        Nat.min_eq_right hle, Nat.min_eq_right (by omega : squeezeRate d.mode ≤ n + m),
        show n + m - squeezeRate d.mode = n - squeezeRate d.mode + m by omega,
        ih (n - squeezeRate d.mode) (by omega) ((d.down [] .zero).up .zero)
          (Nat.dvd_sub hn (Nat.dvd_refl _))]
      simp

/-! ### Crypt -/

/-- One block of Crypt (R148). -/
theorem cryptBlocks_cons (dir : Direction) (d : Session) (cu : Flag) (blk : List Byte)
    (rest : List (List Byte)) :
    cryptBlocks dir d cu (blk :: rest) =
      let Q := xorBytes blk ((d.up cu).out blk.length)
      ((cryptBlocks dir ((d.up cu).down (plaintextBlock dir blk Q) .zero) .zero rest).1,
       Q ++ (cryptBlocks dir ((d.up cu).down (plaintextBlock dir blk Q) .zero) .zero rest).2) := rfl

theorem cryptBlocks_append (dir : Direction) (d : Session) (cu : Flag) (bs cs : List (List Byte))
    (h : bs ≠ []) :
    cryptBlocks dir d cu (bs ++ cs) =
      ((cryptBlocks dir (cryptBlocks dir d cu bs).1 .zero cs).1,
       (cryptBlocks dir d cu bs).2 ++ (cryptBlocks dir (cryptBlocks dir d cu bs).1 .zero cs).2) := by
  induction bs generalizing d cu with
  | nil => exact absurd rfl h
  | cons b bs ih =>
    rw [List.cons_append, cryptBlocks_cons, cryptBlocks_cons]
    cases bs with
    | nil => simp [cryptBlocks]
    | cons b' bs' => simp only [ih _ _ (by simp : b' :: bs' ≠ []), List.append_assoc]

@[simp] theorem cryptBlocks_mode (dir : Direction) (d : Session) (cu : Flag)
    (bs : List (List Byte)) : (cryptBlocks dir d cu bs).1.mode = d.mode := by
  induction bs generalizing d cu with
  | nil => rfl
  | cons b bs ih => rw [cryptBlocks_cons]; simp [ih]

theorem cryptBlocks_phase (dir : Direction) (d : Session) (cu : Flag) (bs : List (List Byte))
    (h : bs ≠ []) : (cryptBlocks dir d cu bs).1.phase = .down := by
  induction bs generalizing d cu with
  | nil => exact absurd rfl h
  | cons b bs ih =>
    rw [cryptBlocks_cons]
    cases bs with
    | nil => rfl
    | cons b' bs' => exact ih _ _ (by simp)

theorem cryptBlocks_length (dir : Direction) (d : Session) (cu : Flag) (bs : List (List Byte))
    (h : ∀ b ∈ bs, b.length ≤ 48) : (cryptBlocks dir d cu bs).2.length = bs.flatten.length := by
  induction bs generalizing d cu with
  | nil => rfl
  | cons b bs ih =>
    have hb := h b (by simp)
    rw [cryptBlocks_cons]
    simp only [List.length_append, length_xorBytes, Session.length_out, List.flatten_cons,
      ih _ _ fun c hc => h c (by simp [hc])]
    omega

@[simp] theorem crypt_mode (d : Session) (I : List Byte) (dir : Direction) (cu : Flag) :
    (crypt d I dir cu).1.mode = d.mode := cryptBlocks_mode _ _ _ _

@[simp] theorem crypt_phase (d : Session) (I : List Byte) (dir : Direction) (cu : Flag) :
    (crypt d I dir cu).1.phase = .down := cryptBlocks_phase _ _ _ _ (split_ne_nil I _)

/-! ### The plaintext block and the ciphertext that Down leaves -/

/-- Down leaves, in the bytes of its block, the XOR of block and state (R140, R150). -/
theorem out_down (d : Session) (X : List Byte) (cd : Flag) (h : X.length ≤ 44) :
    (d.down X cd).out X.length = xorBytes X (d.out X.length) := by
  apply List.ext_getElem?
  intro i
  by_cases hi : i < X.length
  · have h48 : i < 48 := by omega
    rw [Session.getElem?_out _ _ _ hi h48]
    unfold xorBytes
    rw [List.getElem?_zipWith, Session.getElem?_out _ _ _ hi h48, List.getElem?_eq_getElem hi]
    simp only [Session.down, byteAt_xorAt _ _ _ _ h48, byteAt_xorBlock _ _ _ _ h48,
      show (47 : Nat) ≠ i by omega, show X.length ≠ i by omega, if_false, Nat.zero_le, if_true,
      Nat.sub_zero, List.getElem?_eq_getElem hi, Option.getD_some]
    rw [BitVec.xor_comm]
  · rw [List.getElem?_eq_none (by simp; omega), List.getElem?_eq_none (by simp; omega)]

end Sys2Proof.Machine
end

