-- ==== Sys2Proof/Laws/Encoding.lean ====
section
/-! SUPPORT. The fields of encoded words and the inversion of `decode`. -/

namespace Sys2Proof

/-- The opcode byte of a format N word. -/
theorem opcOf_encodeN (opc : Byte) : opcOf (encodeN opc) = opc := by
  unfold opcOf encodeN
  ext i hi
  simp [BitVec.getElem_extractLsb', hi, show i < 32 by omega]

/-- The opcode byte of a format L word. -/
theorem opcOf_encodeL (opc : Byte) (len : Nat) (cont : Bool) : opcOf (encodeL opc len cont) = opc := by
  unfold opcOf encodeL
  ext i hi
  simp [BitVec.getElem_extractLsb', hi, show i < 32 by omega, show i < 16 by omega]

/-- The opcode byte of a format K word. -/
theorem opcOf_encodeK (opc : Byte) (klen idlen clen : Nat) :
    opcOf (encodeK opc klen idlen clen) = opc := by
  unfold opcOf encodeK
  ext i hi
  simp [BitVec.getElem_extractLsb', hi, show i < 32 by omega, show i < 16 by omega,
    show i < 24 by omega]

/-- The reserved bits of a format N word. -/
theorem encodeN_reserved (opc : Byte) : (encodeN opc).extractLsb' 8 24 = 0 := by
  unfold encodeN
  ext i hi
  simp [BitVec.getElem_extractLsb', BitVec.getLsbD_of_ge]

/-- A number below `2 ^ k` has no bit from `k` up. -/
theorem testBit_of_lt {n k j : Nat} (h : n < 2 ^ k) (hj : k ≤ j) : n.testBit j = false :=
  Nat.testBit_lt_two_pow (Nat.lt_of_lt_of_le h (Nat.pow_le_pow_right (by omega) hj))

/-- A bit of a number written as a bit vector. -/
theorem bit_ofNat (w n i : Nat) (h : i < w) : (BitVec.ofNat w n)[i] = n.testBit i := by
  rw [← BitVec.getLsbD_eq_getElem, BitVec.getLsbD_ofNat]
  simp [h]

/-- An opcode byte has no bit from 8 up. -/
theorem opc_bit (opc : Byte) {j : Nat} (h : 8 ≤ j) : opc.getLsbD j = false :=
  BitVec.getLsbD_of_ge _ _ h

/-- The LEN field of a format L word. -/
theorem lenOf_encodeL (opc : Byte) (len : Nat) (cont : Bool) (h : len < 2 ^ 16) :
    lenOf (encodeL opc len cont) = len := by
  have : (encodeL opc len cont).extractLsb' 16 16 = BitVec.ofNat 16 len := by
    apply BitVec.eq_of_getLsbD_eq
    intro i hi
    simp [encodeL, bit_ofNat, hi, show 16 + i < 32 by omega,
      show 16 + i - 8 ≠ 0 by omega, opc_bit opc (show 8 ≤ 16 + i by omega)]
  rw [lenOf, this, BitVec.toNat_ofNat]
  exact Nat.mod_eq_of_lt h

/-- The CONT field of a format L word. -/
theorem contOf_encodeL (opc : Byte) (len : Nat) (cont : Bool) :
    contOf (encodeL opc len cont) = cont := by
  cases cont <;> simp [contOf, encodeL]

/-- The reserved bits of a format L word. -/
theorem encodeL_reserved (opc : Byte) (len : Nat) (cont : Bool) :
    (encodeL opc len cont).extractLsb' 9 7 = 0 := by
  apply BitVec.eq_of_getLsbD_eq
  intro i hi
  simp [encodeL, show 9 + i < 16 by omega, show 9 + i - 8 ≠ 0 by omega,
    opc_bit opc (show 8 ≤ 9 + i by omega)]

/-- The KLEN field of a format K word. -/
theorem klenOf_encodeK (opc : Byte) (klen idlen clen : Nat) (h : klen < 2 ^ 6) :
    klenOf (encodeK opc klen idlen clen) = klen := by
  have : (encodeK opc klen idlen clen).extractLsb' 8 6 = BitVec.ofNat 6 klen := by
    apply BitVec.eq_of_getLsbD_eq
    intro i hi
    simp [encodeK, bit_ofNat, hi, show 8 + i < 32 by omega,
      show 8 + i < 16 by omega, show 8 + i < 24 by omega]
  rw [klenOf, this, BitVec.toNat_ofNat]
  exact Nat.mod_eq_of_lt h

/-- The IDLEN field of a format K word. -/
theorem idlenOf_encodeK (opc : Byte) (klen idlen clen : Nat) (hk : klen < 2 ^ 6)
    (h : idlen < 2 ^ 6) : idlenOf (encodeK opc klen idlen clen) = idlen := by
  have : (encodeK opc klen idlen clen).extractLsb' 16 6 = BitVec.ofNat 6 idlen := by
    apply BitVec.eq_of_getLsbD_eq
    intro i hi
    simp [encodeK, bit_ofNat, hi, show 16 + i < 32 by omega,
      show 16 + i < 24 by omega, opc_bit opc (show 8 ≤ 16 + i by omega),
      testBit_of_lt hk (show 6 ≤ 16 + i - 8 by omega)]
  rw [idlenOf, this, BitVec.toNat_ofNat]
  exact Nat.mod_eq_of_lt h

/-- The CLEN field of a format K word. -/
theorem clenOf_encodeK (opc : Byte) (klen idlen clen : Nat) (hk : klen < 2 ^ 6)
    (hd : idlen < 2 ^ 6) (h : clen < 2 ^ 8) : clenOf (encodeK opc klen idlen clen) = clen := by
  have : (encodeK opc klen idlen clen).extractLsb' 24 8 = BitVec.ofNat 8 clen := by
    apply BitVec.eq_of_getLsbD_eq
    intro i hi
    simp [encodeK, bit_ofNat, hi, show 24 + i < 32 by omega,
      opc_bit opc (show 8 ≤ 24 + i by omega), testBit_of_lt hk (show 6 ≤ 24 + i - 8 by omega),
      testBit_of_lt hd (show 6 ≤ 24 + i - 16 by omega)]
  rw [clenOf, this, BitVec.toNat_ofNat]
  exact Nat.mod_eq_of_lt h

/-- The reserved bits 15:14 and 23:22 of a format K word. -/
theorem encodeK_reserved (opc : Byte) (klen idlen clen : Nat) (hk : klen < 2 ^ 6)
    (hd : idlen < 2 ^ 6) :
    (encodeK opc klen idlen clen).extractLsb' 14 2 = 0 ∧
      (encodeK opc klen idlen clen).extractLsb' 22 2 = 0 := by
  constructor <;> apply BitVec.eq_of_getLsbD_eq <;> intro i hi
  · simp [encodeK, BitVec.getLsbD_ofNat, show 14 + i < 16 by omega, show 14 + i < 24 by omega,
      opc_bit opc (show 8 ≤ 14 + i by omega), testBit_of_lt hk (show 6 ≤ 14 + i - 8 by omega)]
  · simp [encodeK, BitVec.getLsbD_ofNat, show 22 + i < 24 by omega,
      opc_bit opc (show 8 ≤ 22 + i by omega), testBit_of_lt hk (show 6 ≤ 22 + i - 8 by omega),
      testBit_of_lt hd (show 6 ≤ 22 + i - 16 by omega)]

theorem decodeN_inv {w : Word} {i j : Instr} (h : decodeN w i = .command j) :
    w.extractLsb' 8 24 = 0 ∧ j = i := by
  unfold decodeN at h
  split at h
  · rename_i h0; exact ⟨h0, (Decoded.command.inj h).symm⟩
  · cases h

theorem decodeCtx_inv {port : CtxPort} {w : Word} {i j : Instr}
    (h : decodeCtx port w i = .command j) :
    w.extractLsb' 8 24 = 0 ∧ port = .present ∧ j = i := by
  unfold decodeCtx at h
  split at h
  · rename_i h0
    cases port with
    | present => exact ⟨h0, rfl, (Decoded.command.inj h).symm⟩
    | absent => cases h
  · cases h

theorem decodeL_inv {w : Word} {i : Nat → Bool → Instr} {j : Instr}
    (h : decodeL w i = .command j) :
    w.extractLsb' 9 7 = 0 ∧ j = i (lenOf w) (contOf w) := by
  unfold decodeL at h
  split at h
  · rename_i h0; exact ⟨h0, (Decoded.command.inj h).symm⟩
  · cases h

theorem decodeK_inv {w : Word} {i : Nat → Nat → Nat → Instr} {j : Instr}
    (h : decodeK w i = .command j) :
    w.extractLsb' 14 2 = 0 ∧ w.extractLsb' 22 2 = 0 ∧ j = i (klenOf w) (idlenOf w) (clenOf w) := by
  unfold decodeK at h
  split at h
  · rename_i h0; exact ⟨h0.1, h0.2, (Decoded.command.inj h).symm⟩
  · cases h

/-- What a legal word is: its format's reserved bits are 0, its opcode byte is the command's, and the
command's operands are its fields (R90). -/
theorem decode_cases {port : CtxPort} {w : Word} {i : Instr} (h : decode port w = .command i) :
    opcOf w = i.opcode ∧
    ((w.extractLsb' 8 24 = 0 ∧ (i = .initHash ∨ i = .ratchet)) ∨
     (w.extractLsb' 8 24 = 0 ∧ port = .present ∧ (i = .permute ∨ i = .ctxSave ∨ i = .ctxRestore)) ∨
     (w.extractLsb' 9 7 = 0 ∧
       (i = .absorb (lenOf w) (contOf w) ∨ i = .squeeze (lenOf w) (contOf w) ∨
        i = .squeezeKey (lenOf w) (contOf w) ∨ i = .encrypt (lenOf w) (contOf w) ∨
        i = .decrypt (lenOf w) (contOf w))) ∨
     (w.extractLsb' 14 2 = 0 ∧ w.extractLsb' 22 2 = 0 ∧
       i = .initKeyed (klenOf w) (idlenOf w) (clenOf w))) := by
  unfold decode at h
  by_cases H : opcOf w = 0x01#8
  · rw [if_pos H] at h; obtain ⟨a, rfl⟩ := decodeN_inv h
    exact ⟨H, .inl ⟨a, .inl rfl⟩⟩
  rw [if_neg H] at h; clear H
  by_cases H : opcOf w = 0x02#8
  · rw [if_pos H] at h; obtain ⟨a, b, rfl⟩ := decodeK_inv h
    exact ⟨H, .inr (.inr (.inr ⟨a, b, rfl⟩))⟩
  rw [if_neg H] at h; clear H
  by_cases H : opcOf w = 0x03#8
  · rw [if_pos H] at h; obtain ⟨a, rfl⟩ := decodeL_inv h
    exact ⟨H, .inr (.inr (.inl ⟨a, .inl rfl⟩))⟩
  rw [if_neg H] at h; clear H
  by_cases H : opcOf w = 0x04#8
  · rw [if_pos H] at h; obtain ⟨a, rfl⟩ := decodeL_inv h
    exact ⟨H, .inr (.inr (.inl ⟨a, .inr (.inl rfl)⟩))⟩
  rw [if_neg H] at h; clear H
  by_cases H : opcOf w = 0x05#8
  · rw [if_pos H] at h; obtain ⟨a, rfl⟩ := decodeL_inv h
    exact ⟨H, .inr (.inr (.inl ⟨a, .inr (.inr (.inl rfl))⟩))⟩
  rw [if_neg H] at h; clear H
  by_cases H : opcOf w = 0x06#8
  · rw [if_pos H] at h; obtain ⟨a, rfl⟩ := decodeL_inv h
    exact ⟨H, .inr (.inr (.inl ⟨a, .inr (.inr (.inr (.inl rfl)))⟩))⟩
  rw [if_neg H] at h; clear H
  by_cases H : opcOf w = 0x07#8
  · rw [if_pos H] at h; obtain ⟨a, rfl⟩ := decodeL_inv h
    exact ⟨H, .inr (.inr (.inl ⟨a, .inr (.inr (.inr (.inr rfl)))⟩))⟩
  rw [if_neg H] at h; clear H
  by_cases H : opcOf w = 0x08#8
  · rw [if_pos H] at h; obtain ⟨a, rfl⟩ := decodeN_inv h
    exact ⟨H, .inl ⟨a, .inr rfl⟩⟩
  rw [if_neg H] at h; clear H
  by_cases H : opcOf w = 0x10#8
  · rw [if_pos H] at h; obtain ⟨a, b, rfl⟩ := decodeCtx_inv h
    exact ⟨H, .inr (.inl ⟨a, b, .inl rfl⟩)⟩
  rw [if_neg H] at h; clear H
  by_cases H : opcOf w = 0x11#8
  · rw [if_pos H] at h; obtain ⟨a, b, rfl⟩ := decodeCtx_inv h
    exact ⟨H, .inr (.inl ⟨a, b, .inr (.inl rfl)⟩)⟩
  rw [if_neg H] at h; clear H
  by_cases H : opcOf w = 0x12#8
  · rw [if_pos H] at h; obtain ⟨a, b, rfl⟩ := decodeCtx_inv h
    exact ⟨H, .inr (.inl ⟨a, b, .inr (.inr rfl)⟩)⟩
  rw [if_neg H] at h; clear H
  cases h

end Sys2Proof
end

