-- ==== Sys2Proof/Laws/FastPermutation.lean ====
section
/-! SUPPORT. Permute on twelve natural numbers, equal to `permute`: the form the kernel evaluates fast, for vectors of many permutations (R122). -/

namespace Sys2Proof.Machine

/-- `f n`, with `n` evaluated first. -/
def forced {α : Type} (n : Nat) (f : Nat → α) : α := Nat.rec (f 0) (fun k _ => f (Nat.succ k)) n

theorem forced_eq {α : Type} (n : Nat) (f : Nat → α) : forced n f = f n := by
  cases n <;> rfl

/-- `rotl` on numbers below 2^32. -/
def natRotl (n k : Nat) : Nat :=
  Nat.lor (Nat.mod (Nat.shiftLeft n k) 4294967296) (Nat.shiftRight n (Nat.sub 32 k))

theorem natRotl_toNat (a : Lane) (k : Nat) : natRotl a.toNat k = (rotl a k).toNat := by
  rw [rotl, BitVec.toNat_or, BitVec.toNat_shiftLeft, BitVec.toNat_ushiftRight]; rfl

/-- `a xor (not b and c)` on numbers below 2^32. -/
def natChi (a b c : Nat) : Nat := Nat.xor a (Nat.land (Nat.sub 4294967295 b) c)

theorem natChi_toNat (a b c : Lane) :
    natChi a.toNat b.toNat c.toNat = (a ^^^ (~~~b &&& c)).toNat := by
  rw [BitVec.toNat_xor, BitVec.toNat_and, BitVec.toNat_not]; rfl

/-- The exclusive or of three numbers. -/
def natXor3 (a b c : Nat) : Nat := Nat.xor (Nat.xor a b) c

theorem natXor3_toNat (a b c : Lane) : natXor3 a.toNat b.toNat c.toNat = (a ^^^ b ^^^ c).toNat := by
  rw [BitVec.toNat_xor, BitVec.toNat_xor]; rfl

theorem natXor_toNat (a b : Lane) : Nat.xor a.toNat b.toNat = (a ^^^ b).toNat := by
  rw [BitVec.toNat_xor]; rfl

/-- The column effect of a parity (R112). -/
def natEffect (p : Nat) : Nat := Nat.xor (natRotl p 5) (natRotl p 14)

theorem natEffect_toNat (p : Lane) : natEffect p.toNat = (rotl p 5 ^^^ rotl p 14).toNat := by
  rw [natEffect, natRotl_toNat, natRotl_toNat, natXor_toNat]

/-- A consumer of twelve lanes as numbers. -/
abbrev LaneFun (α : Type) : Type :=
  Nat → Nat → Nat → Nat → Nat → Nat → Nat → Nat → Nat → Nat → Nat → Nat → α

/-- `f` applied to the lanes of `p`. -/
def onLanes {α : Type} (f : LaneFun α) (p : Planes) : α :=
  f p.A[0].toNat p.A[1].toNat p.A[2].toNat p.A[3].toNat p.B[0].toNat p.B[1].toNat p.B[2].toNat
    p.B[3].toNat p.C[0].toNat p.C[1].toNat p.C[2].toNat p.C[3].toNat

/-- One round, then `k`. -/
def natRound {α : Type} (rc : Nat) (k : LaneFun α) : LaneFun α :=
  fun a0 a1 a2 a3 b0 b1 b2 b3 c0 c1 c2 c3 =>
  forced (natXor3 a3 b3 c3) fun p0 =>
  forced (natXor3 a0 b0 c0) fun p1 =>
  forced (natXor3 a1 b1 c1) fun p2 =>
  forced (natXor3 a2 b2 c2) fun p3 =>
  forced (natEffect p0) fun e0 =>
  forced (natEffect p1) fun e1 =>
  forced (natEffect p2) fun e2 =>
  forced (natEffect p3) fun e3 =>
  forced (Nat.xor (Nat.xor a0 e0) rc) fun a0 =>
  forced (Nat.xor a1 e1) fun a1 =>
  forced (Nat.xor a2 e2) fun a2 =>
  forced (Nat.xor a3 e3) fun a3 =>
  forced (Nat.xor b3 e3) fun x0 =>
  forced (Nat.xor b0 e0) fun x1 =>
  forced (Nat.xor b1 e1) fun x2 =>
  forced (Nat.xor b2 e2) fun x3 =>
  forced (natRotl (Nat.xor c0 e0) 11) fun c0 =>
  forced (natRotl (Nat.xor c1 e1) 11) fun c1 =>
  forced (natRotl (Nat.xor c2 e2) 11) fun c2 =>
  forced (natRotl (Nat.xor c3 e3) 11) fun c3 =>
  forced (natChi a0 x0 c0) fun a0 =>
  forced (natChi a1 x1 c1) fun a1 =>
  forced (natChi a2 x2 c2) fun a2 =>
  forced (natChi a3 x3 c3) fun a3 =>
  forced (natChi x0 c0 a0) fun x0 =>
  forced (natChi x1 c1 a1) fun x1 =>
  forced (natChi x2 c2 a2) fun x2 =>
  forced (natChi x3 c3 a3) fun x3 =>
  forced (natRotl (natChi c0 a0 x0) 8) fun c0 =>
  forced (natRotl (natChi c1 a1 x1) 8) fun c1 =>
  forced (natRotl (natChi c2 a2 x2) 8) fun c2 =>
  forced (natRotl (natChi c3 a3 x3) 8) fun c3 =>
  forced (natRotl x0 1) fun x0 =>
  forced (natRotl x1 1) fun x1 =>
  forced (natRotl x2 1) fun x2 =>
  forced (natRotl x3 1) fun x3 =>
  k a0 a1 a2 a3 x0 x1 x2 x3 c2 c3 c0 c1

theorem onLanes_natRound {α : Type} (rc : Lane) (k : LaneFun α) (p : Planes) :
    onLanes (natRound rc.toNat k) p = onLanes k (permRound p rc) := by
  simp only [onLanes, natRound, forced_eq, natXor3_toNat, natEffect_toNat, natXor_toNat,
    natRotl_toNat, natChi_toNat]
  rfl

/-- Rounds with the given constants, then `k`. -/
def natRounds {α : Type} (rcs : List Nat) (k : LaneFun α) : LaneFun α :=
  List.rec k (fun rc _ ih => natRound rc ih) rcs

theorem onLanes_natRounds {α : Type} (rcs : List Lane) (k : LaneFun α) (p : Planes) :
    onLanes (natRounds (rcs.map BitVec.toNat) k) p = onLanes k (rcs.foldl permRound p) := by
  induction rcs generalizing p with
  | nil => rfl
  | cons rc rcs ih =>
    rw [List.foldl_cons, ← ih, ← onLanes_natRound]
    rfl

/-- The round constants of R111 as numbers. -/
def natRoundConstants : List Nat :=
  [0x058, 0x038, 0x3C0, 0x0D0, 0x120, 0x014, 0x060, 0x02C, 0x380, 0x0F0, 0x1A0, 0x012]

/-- `n` permutations, then `k`. -/
def natPermuteTimes {α : Type} (n : Nat) (k : LaneFun α) : LaneFun α :=
  Nat.rec k (fun _ ih => natRounds natRoundConstants ih) n

/-- `n` permutations of the planes. -/
def permutePlanesTimes : Nat → Planes → Planes
  | 0, p => p
  | n + 1, p => permutePlanesTimes n (permutePlanes p)

/-- The fast form computes `n` permutations of the planes. -/
theorem onLanes_natPermuteTimes {α : Type} (n : Nat) (k : LaneFun α) (p : Planes) :
    onLanes (natPermuteTimes n k) p = onLanes k (permutePlanesTimes n p) := by
  induction n generalizing p with
  | zero => rfl
  | succ n ih =>
    rw [permutePlanesTimes, ← ih, permutePlanes, ← onLanes_natRounds]
    rfl

end Sys2Proof.Machine
end

