-- ==== Sys2Proof/Laws/Ops.lean ====
section
/-! SUPPORT. What each shared operation of the controller can do, said once. -/

namespace Sys2Proof.Machine

variable {s t : State} {i : Instr} {txn : Session → List Byte → TxnResult}

/-- CompleteIfDone either completes the command or changes nothing (R65). -/
theorem completeIfDone_cases (s : State) :
    (s.ctl = .run ∧ s.run.executed = true ∧ s.run.outLeft = 0 ∧
      s.completeIfDone = { s with ctl := .idle, run := RunRecord.empty }) ∨
    (¬ (s.ctl = .run ∧ s.run.executed = true ∧ s.run.outLeft = 0) ∧ s.completeIfDone = s) := by
  unfold State.completeIfDone
  split
  · rename_i h; exact .inl ⟨h.1, h.2.1, h.2.2, rfl⟩
  · rename_i h; exact .inr ⟨h, rfl⟩

theorem completeIfDone_of_done (h1 : s.ctl = .run) (h2 : s.run.executed = true)
    (h3 : s.run.outLeft = 0) :
    s.completeIfDone = { s with ctl := .idle, run := RunRecord.empty } := by
  simp [State.completeIfDone, h1, h2, h3]

theorem completeIfDone_of_left (h : s.run.outLeft ≠ 0) : s.completeIfDone = s := by
  simp [State.completeIfDone, h]

/-- Execute does one of four things (R64): nothing, when the input is incomplete or the command has
executed; a fault of the transaction; completion; or output to read. -/
theorem execute_cases (s : State) (txn : Session → List Byte → TxnResult) :
    (¬ (s.run.inBuf.length = s.run.inNeed ∧ s.run.executed = false) ∧ s.execute txn = s) ∨
    (s.run.inBuf.length = s.run.inNeed ∧ s.run.executed = false ∧
      ((∃ c info, txn s.session s.run.inBuf = .fault c info ∧ s.execute txn = s.raise c info) ∨
       (∃ d O, txn s.session s.run.inBuf = .done d O ∧
         s.execute txn = State.completeIfDone
           { s with session := d,
                    run := { s.run with executed := true, outBuf := O.take s.params.doutDepth,
                                        outRest := O.drop s.params.doutDepth } }))) := by
  unfold State.execute
  split
  · rename_i h
    refine .inr ⟨h.1, h.2, ?_⟩
    cases h' : txn s.session s.run.inBuf with
    | done d O => exact .inr ⟨d, O, rfl, rfl⟩
    | fault c info => exact .inl ⟨c, info, rfl, rfl⟩
  · rename_i h; exact .inl ⟨h, rfl⟩

/-- Execution of a ready command whose transaction succeeds without output: it completes. -/
theorem execute_done_nil (h1 : s.ctl = .run) (h2 : s.run.executed = false)
    (h3 : s.run.inBuf.length = s.run.inNeed) (h4 : s.run.outLeft = 0) {d : Session} {O : List Byte}
    (h5 : txn s.session s.run.inBuf = .done d O) :
    s.execute txn = { s with session := d, ctl := .idle, run := RunRecord.empty } := by
  simp [State.execute, h1, h2, h3, h4, h5, State.completeIfDone]

/-- Execution of a ready command whose transaction succeeds with output left to read. -/
theorem execute_done_left (h2 : s.run.executed = false)
    (h3 : s.run.inBuf.length = s.run.inNeed) (h4 : s.run.outLeft ≠ 0) {d : Session} {O : List Byte}
    (h5 : txn s.session s.run.inBuf = .done d O) :
    s.execute txn =
      { s with session := d,
               run := { s.run with executed := true, outBuf := O.take s.params.doutDepth,
                                   outRest := O.drop s.params.doutDepth } } := by
  simp [State.execute, h2, h3, h4, h5, State.completeIfDone]

/-- Execution of a ready command whose transaction faults: only the fault. -/
theorem execute_fault (h2 : s.run.executed = false) (h3 : s.run.inBuf.length = s.run.inNeed)
    {c : Cause} {info : Word} (h5 : txn s.session s.run.inBuf = .fault c info) :
    s.execute txn = s.raise c info := by
  simp [State.execute, h2, h3, h5]

/-- A command in IDLE that takes input, or on an engine with latency, does not execute yet. -/
theorem execute_of_incomplete (h : s.run.inBuf.length ≠ s.run.inNeed) : s.execute txn = s := by
  simp [State.execute, h]

/-- What execution leaves alone, in every case. -/
theorem execute_frame (s : State) (txn : Session → List Byte → TxnResult) :
    (s.execute txn).params = s.params ∧ (s.execute txn).pending = s.pending ∧
    (s.execute txn).replies = s.replies ∧ (s.execute txn).fresh = s.fresh := by
  rcases execute_cases s txn with ⟨-, h⟩ | ⟨-, -, ⟨c, info, -, h⟩ | ⟨d, O, -, h⟩⟩
  · rw [h]; exact ⟨rfl, rfl, rfl, rfl⟩
  · rw [h]; exact ⟨rfl, rfl, rfl, rfl⟩
  · rw [h]
    rcases completeIfDone_cases
        { s with session := d,
                 run := { s.run with executed := true, outBuf := O.take s.params.doutDepth,
                                     outRest := O.drop s.params.doutDepth } } with
      ⟨-, -, -, h'⟩ | ⟨-, h'⟩ <;> rw [h'] <;> exact ⟨rfl, rfl, rfl, rfl⟩

/-- Every command answers a next state, in one of five ways (R57, R64, R252). -/
theorem runCommand_cases (i : Instr) (v : Option Cause) (txn : Session → List Byte → TxnResult)
    (s : State) :
    (s.ctl = .fault ∧ runCommand i v txn s = .next s) ∨
    (s.ctl = .run ∧ runCommand i v txn s = .next (s.execute txn)) ∨
    (s.ctl = .idle ∧ ∃ c, v = some c ∧ runCommand i v txn s = .next (s.raise c (encode i))) ∨
    (s.ctl = .idle ∧ v = none ∧ s.params.permLatency = 0 ∧
      runCommand i v txn s = .next ((s.accept i).execute txn)) ∨
    (s.ctl = .idle ∧ v = none ∧ s.params.permLatency ≠ 0 ∧
      runCommand i v txn s = .next (s.accept i)) := by
  unfold runCommand
  cases hc : s.ctl <;> cases v <;> simp
  by_cases hl : s.params.permLatency = 0 <;> simp [hl]

/-- The eleven meanings are one shape: the checks of R57 for the command, then its transaction. -/
theorem exec_eq_runCommand (i : Instr) (s : State) :
    exec i s =
      runCommand i (violation s.params.ctxPort s.session.mode i) (transaction i) s := by
  have hk : keyedOnly s = if s.session.mode = .hash then some .modeViolation else none := by
    unfold keyedOnly; cases s.session.mode <;> rfl
  have hp : contextPortCheck s = if s.params.ctxPort = .absent then some .illegalCmd else none := by
    unfold contextPortCheck; cases s.params.ctxPort <;> rfl
  cases i
  case initKeyed klen idlen clen =>
    have hc : keyLengthCheck klen idlen =
        violation s.params.ctxPort s.session.mode (.initKeyed klen idlen clen) := by
      unfold keyLengthCheck violation
      cases h : keyLengthOk klen idlen <;> simp [needsCtxPort, needsKeyed, keyFits, h]
    rw [exec, execInitKeyed, hc, transaction]
  all_goals
    simp [exec, execInitHash, execAbsorb, execSqueeze, execSqueezeKey, execEncrypt, execDecrypt,
      execRatchet, execPermute, execCtxSave, execCtxRestore, transaction, violation, needsCtxPort,
      needsKeyed, keyFits, hk, hp]

/-- In RUN a command executes if its input is complete (R64). -/
theorem exec_of_run (i : Instr) (h : s.ctl = .run) :
    exec i s = .next (s.execute (transaction i)) := by
  simp [exec_eq_runCommand, runCommand, h]

/-- In FAULT a command does nothing (R252). -/
theorem exec_of_fault (i : Instr) (h : s.ctl = .fault) : exec i s = .next s := by
  simp [exec_eq_runCommand, runCommand, h]

/-- In IDLE a command that fails a check of R57 raises its fault. -/
theorem exec_of_violation {c : Cause} (h : s.ctl = .idle)
    (hv : violation s.params.ctxPort s.session.mode i = some c) :
    exec i s = .next (s.raise c (encode i)) := by
  simp [exec_eq_runCommand, runCommand, h, hv]

/-- In IDLE, without latency, an admitted command is accepted and executes if it takes no input (R57,
R64). -/
theorem exec_of_accept (h : s.ctl = .idle)
    (hv : violation s.params.ctxPort s.session.mode i = none) (hl : s.params.permLatency = 0) :
    exec i s = .next ((s.accept i).execute (transaction i)) := by
  simp [exec_eq_runCommand, runCommand, h, hv, hl]

/-- In IDLE, with latency, an admitted command is accepted (R57; log 4). -/
theorem exec_of_accept_later (h : s.ctl = .idle)
    (hv : violation s.params.ctxPort s.session.mode i = none) (hl : s.params.permLatency ≠ 0) :
    exec i s = .next (s.accept i) := by
  simp [exec_eq_runCommand, runCommand, h, hv, hl]

/-- A command passes every check of R57 exactly when it violates none. -/
theorem admitted_iff (port : CtxPort) (m : Mode) (i : Instr) :
    admitted port m i = true ↔ violation port m i = none := by
  unfold admitted violation
  cases port <;> cases m <;> cases needsCtxPort i <;> cases needsKeyed i <;> cases keyFits i <;> decide

/-- A violated check gives a real cause, one of the three of R57. -/
theorem violation_cause {port : CtxPort} {m : Mode} {c : Cause} (h : violation port m i = some c) :
    c = .illegalCmd ∨ c = .modeViolation ∨ c = .keyLength := by
  unfold violation at h
  split_ifs at h <;> simp_all

/-- Only CTX_RESTORE's transaction faults, with CTX_INVALID and its context byte (R64, R222). -/
theorem transaction_fault {d : Session} {I : List Byte} {c : Cause} {info : Word}
    (h : transaction i d I = .fault c info) :
    i = .ctxRestore ∧ c = .ctxInvalid ∧ info = zext32 (imageContextByte I) ∧
      (imageContextByte I).extractLsb' 2 6 ≠ 0 := by
  cases i <;>
    simp only [transaction, txnInitHash, txnInitKeyed, txnAbsorb, txnSqueeze, txnSqueezeKey,
      txnEncrypt, txnDecrypt, txnRatchet, txnPermute, txnCtxSave, txnCtxRestore, reduceCtorEq] at h
  split at h
  · rename_i hc
    simp only [TxnResult.fault.injEq] at h
    exact ⟨rfl, h.1.symm, h.2.symm, hc⟩
  · simp at h

/-- A command with its transaction applied and its output in the buffers, before CompleteIfDone (R64). -/
def State.executed (s : State) (d : Session) (O : List Byte) : State :=
  { s with session := d,
           run := { s.run with executed := true, outBuf := O.take s.params.doutDepth,
                               outRest := O.drop s.params.doutDepth } }

/-- What applying a transaction and completing leaves alone; the session is the transaction's. -/
theorem executed_completeIfDone_frame (s : State) (d : Session) (O : List Byte) :
    (s.executed d O).completeIfDone.params = s.params ∧
    (s.executed d O).completeIfDone.pending = s.pending ∧
    (s.executed d O).completeIfDone.replies = s.replies ∧
    (s.executed d O).completeIfDone.fresh = s.fresh ∧
    (s.executed d O).completeIfDone.cause = s.cause ∧
    (s.executed d O).completeIfDone.faultInfo = s.faultInfo ∧
    (s.executed d O).completeIfDone.session = d := by
  rcases completeIfDone_cases (s.executed d O) with ⟨-, -, -, h'⟩ | ⟨-, h'⟩ <;> rw [h'] <;>
    exact ⟨rfl, rfl, rfl, rfl, rfl, rfl, rfl⟩

/-- Everything a command can do (R57, R64, R252). `s0` is the state its transaction runs on: the state
itself in RUN, the accepted state at a presentation. -/
inductive ExecCase (i : Instr) (s : State) : State → Prop
  /-- In FAULT, or in RUN when nothing is due. -/
  | nothing (h : s.ctl = .fault ∨ s.ctl = .run ∧
      ¬ (s.run.inBuf.length = s.run.inNeed ∧ s.run.executed = false)) : ExecCase i s s
  /-- A check of R57 fails. -/
  | turnedAway (c : Cause) (hc : s.ctl = .idle)
      (hv : violation s.params.ctxPort s.session.mode i = some c) : ExecCase i s (s.raise c (encode i))
  /-- Accepted, not executed yet. -/
  | accepted (hc : s.ctl = .idle) (hv : violation s.params.ctxPort s.session.mode i = none)
      (hl : inLen i ≠ 0 ∨ s.params.permLatency ≠ 0) : ExecCase i s (s.accept i)
  /-- The transaction faults: CTX_RESTORE on an invalid image. -/
  | badImage (hc : s.ctl = .run) (hi : s.run.inBuf.length = s.run.inNeed)
      (he : s.run.executed = false) (h : i = .ctxRestore)
      (hb : (imageContextByte s.run.inBuf).extractLsb' 2 6 ≠ 0) :
      ExecCase i s (s.raise .ctxInvalid (zext32 (imageContextByte s.run.inBuf)))
  /-- The transaction is applied. -/
  | applied (s0 : State) (d : Session) (O : List Byte)
      (h0 : s0 = s ∧ s.ctl = .run ∧ s.run.inBuf.length = s.run.inNeed ∧ s.run.executed = false ∨
        s0 = s.accept i ∧ s.ctl = .idle ∧ violation s.params.ctxPort s.session.mode i = none ∧
          inLen i = 0 ∧ s.params.permLatency = 0)
      (ht : transaction i s.session s0.run.inBuf = .done d O) :
      ExecCase i s (s0.executed d O).completeIfDone

/-- Every command answers a next state in one of these ways. -/
theorem exec_cases (i : Instr) (s : State) : ∃ t, exec i s = .next t ∧ ExecCase i s t := by
  cases hc : s.ctl with
  | fault => exact ⟨s, exec_of_fault i hc, .nothing (.inl hc)⟩
  | run =>
    refine ⟨_, exec_of_run i hc, ?_⟩
    rcases execute_cases s (transaction i) with ⟨h, h'⟩ | ⟨hi, he, ⟨c, info, ht, h'⟩ | ⟨d, O, ht, h'⟩⟩
    · rw [h']; exact .nothing (.inr ⟨hc, h⟩)
    · rw [h']
      obtain ⟨h1, rfl, rfl, h2⟩ := transaction_fault ht
      exact .badImage hc hi he h1 h2
    · rw [h']; exact .applied s d O (.inl ⟨rfl, hc, hi, he⟩) ht
  | idle =>
    cases hv : violation s.params.ctxPort s.session.mode i with
    | some c => exact ⟨_, exec_of_violation hc hv, .turnedAway c hc hv⟩
    | none =>
      by_cases hl : s.params.permLatency = 0
      · refine ⟨_, exec_of_accept hc hv hl, ?_⟩
        rcases execute_cases (s.accept i) (transaction i) with
          ⟨h, h'⟩ | ⟨hi, he, ⟨c, info, ht, h'⟩ | ⟨d, O, ht, h'⟩⟩
        · rw [h']
          exact .accepted hc hv (.inl fun h0 => h ⟨h0.symm, rfl⟩)
        · obtain ⟨h1, -⟩ := transaction_fault ht
          subst h1; cases hi
        · rw [h']
          exact .applied (s.accept i) d O (.inr ⟨rfl, hc, hv, (show 0 = inLen i from hi).symm, hl⟩) ht
      · exact ⟨_, exec_of_accept_later hc hv hl, .accepted hc hv (.inr hl)⟩

/-- The same, read off an answer. -/
theorem exec_inv (h : exec i s = .next t) : ExecCase i s t := by
  obtain ⟨t', h', hcase⟩ := exec_cases i s
  rw [h] at h'; cases h'; exact hcase

end Sys2Proof.Machine
end

