-- ==== Sys2Proof/Laws/PerInstr.lean ====
section
/-! SUPPORT. Statements about every command, one lemma per constructor. -/

namespace Sys2Proof.Laws.OpcodeByte

/-- The low byte of a command's word is its OPC of R85, whatever its operands (R81). -/
def Statement (i : Sys2Proof.Instr) : Prop := Sys2Proof.opcOf (Sys2Proof.encode i) = i.opcode

theorem initHash : Statement .initHash := Sys2Proof.opcOf_encodeN _

theorem initKeyed (klen idlen clen : Nat) : Statement (.initKeyed klen idlen clen) :=
  Sys2Proof.opcOf_encodeK _ _ _ _

theorem absorb (len : Nat) (cont : Bool) : Statement (.absorb len cont) :=
  Sys2Proof.opcOf_encodeL _ _ _

theorem squeeze (len : Nat) (cont : Bool) : Statement (.squeeze len cont) :=
  Sys2Proof.opcOf_encodeL _ _ _

theorem squeezeKey (len : Nat) (cont : Bool) : Statement (.squeezeKey len cont) :=
  Sys2Proof.opcOf_encodeL _ _ _

theorem encrypt (len : Nat) (cont : Bool) : Statement (.encrypt len cont) :=
  Sys2Proof.opcOf_encodeL _ _ _

theorem decrypt (len : Nat) (cont : Bool) : Statement (.decrypt len cont) :=
  Sys2Proof.opcOf_encodeL _ _ _

theorem ratchet : Statement .ratchet := Sys2Proof.opcOf_encodeN _

theorem permute : Statement .permute := Sys2Proof.opcOf_encodeN _

theorem ctxSave : Statement .ctxSave := Sys2Proof.opcOf_encodeN _

theorem ctxRestore : Statement .ctxRestore := Sys2Proof.opcOf_encodeN _

end Sys2Proof.Laws.OpcodeByte
end

