-- ==== Sys2Proof/Laws/Registers.lean ====
section
/-! SUPPORT. What each register access and the engine's own step do, case by case, as equations. -/

namespace Sys2Proof.Machine

variable {s : State} {i : Instr}

/-! ### Which access the next event is (R52) -/

theorem step_of_read {addr : Nat} {off : BitVec 8} {rest : List HostEvent}
    (hp : s.pending = .read addr :: rest) (hw : windowOffset s.params addr = some off) :
    step s = .next (regRead off { s with pending := rest }) := by
  simp [step, hp, event, hw]

theorem step_of_write {addr : Nat} {v : Word} {off : BitVec 8} {rest : List HostEvent}
    (hp : s.pending = .write addr v :: rest) (hw : windowOffset s.params addr = some off) :
    step s = regWrite off v { s with pending := rest } := by
  simp [step, hp, event, hw]

theorem step_of_engine {rest : List HostEvent} (hp : s.pending = .engine :: rest) :
    step s = engineStep { s with pending := rest } := by
  simp [step, hp, event]

/-! ### CMD (R57) -/

theorem cmdWrite_of_fault (w : Word) (h : s.ctl = .fault) : cmdWrite w s = .next s := by
  simp [cmdWrite, h]

theorem cmdWrite_of_run (w : Word) (h : s.ctl = .run) :
    cmdWrite w s = .next (s.raise .cmdWhileBusy w) := by
  simp [cmdWrite, h]

theorem cmdWrite_of_illegal {w : Word} {why : Illegal} (h : s.ctl = .idle)
    (hd : decode s.params.ctxPort w = .illegal why) :
    cmdWrite w s = .next (s.raise .illegalCmd w) := by
  simp [cmdWrite, h, hd]

theorem cmdWrite_of_command {w : Word} (h : s.ctl = .idle)
    (hd : decode s.params.ctxPort w = .command i) : cmdWrite w s = exec i s := by
  simp [cmdWrite, h, hd]

/-! ### DIN (R58) -/

theorem dinWrite_of_fault (v : Word) (h : s.ctl = .fault) : dinWrite v s = .next s := by
  simp [dinWrite, h]

theorem dinWrite_of_idle (v : Word) (h : s.ctl = .idle) :
    dinWrite v s = .next (s.raise .dinUnexpected v) := by
  simp [dinWrite, h]

theorem dinWrite_of_full (v : Word) (h : s.ctl = .run) (hf : s.dinFree = false) :
    dinWrite v s = .next (s.raise .dinUnexpected v) := by
  simp [dinWrite, h, hf]

/-- The byte is taken, and the command does not execute at this access. -/
theorem dinWrite_of_take {v : Word} (h : s.ctl = .run) (hf : s.dinFree = true)
    (hi : s.run.inBuf.length + 1 = s.run.inNeed → s.params.permLatency ≠ 0) :
    dinWrite v s = .next (s.takeIn (v.extractLsb' 0 8)) := by
  have : ¬ ((s.takeIn (v.extractLsb' 0 8)).inputComplete ∧ s.params.permLatency = 0) := by
    rintro ⟨h1, h2⟩
    exact hi (by simpa [State.inputComplete] using h1) h2
  simp [dinWrite, h, hf, this]

/-- The last byte, on an engine without latency: the command executes. -/
theorem dinWrite_of_last {v : Word} (h : s.ctl = .run) (hf : s.dinFree = true)
    (hi : s.run.inBuf.length + 1 = s.run.inNeed) (hl : s.params.permLatency = 0)
    (hd : decode s.params.ctxPort s.run.cur = .command i) :
    dinWrite v s = exec i (s.takeIn (v.extractLsb' 0 8)) := by
  have : (s.takeIn (v.extractLsb' 0 8)).inputComplete ∧ s.params.permLatency = 0 :=
    ⟨by simpa [State.inputComplete] using hi, hl⟩
  simp only [dinWrite, h, hf, if_true, if_pos this]
  simp [resume, hd]

/-! ### DOUT (R59) -/

theorem doutRead_of_fault (h : s.ctl = .fault) : doutRead s = s.reply 0 := by
  simp [doutRead, h]

theorem doutRead_of_idle (h : s.ctl = .idle) :
    doutRead s = (s.raise .doutEmpty 0).reply 0 := by
  simp [doutRead, h]

theorem doutRead_of_empty (h : s.ctl = .run) (ha : s.doutAvail = false) :
    doutRead s = (s.raise .doutEmpty 0).reply 0 := by
  simp [doutRead, h, ha]

theorem doutRead_of_byte {b : Byte} {rest : List Byte} (h : s.ctl = .run)
    (ha : s.doutAvail = true) (hb : s.run.outBuf = b :: rest) :
    doutRead s =
      (State.completeIfDone
        { s with run := { s.run with outBuf := rest, outLeft := s.run.outLeft - 1 } }).reply
          (zext32 b) := by
  simp [doutRead, h, ha, hb]

/-! ### STATUS (R32) -/

/-- A read of STATUS returns it; while BUSY it uses two free values (R41; log 7). -/
theorem statusRead_eq (s : State) :
    statusRead s =
      { s.reply s.status with fresh := if s.ctl = .run then s.fresh + 2 else s.fresh } := by
  cases s with
  | mk p d c r ca fi pe re fr => cases c <;> rfl

/-! ### The engine's own step (R62, R63) -/

theorem engineStep_of_not_run (h : s.ctl ≠ .run) : engineStep s = .next s := by
  unfold engineStep
  cases hc : s.ctl <;> simp_all

/-- The waiting command executes (R64; log 4). -/
theorem engineStep_of_due (h : s.ctl = .run) (hi : s.run.inBuf.length = s.run.inNeed)
    (he : s.run.executed = false) (hd : decode s.params.ctxPort s.run.cur = .command i) :
    engineStep s = exec i s.drainIn := by
  simp [engineStep, h, State.inputComplete, hi, he, resume, hd]

/-- Otherwise the buffers move (R62, R63). -/
theorem engineStep_of_move (h : s.ctl = .run)
    (hi : ¬ (s.run.inBuf.length = s.run.inNeed ∧ s.run.executed = false)) :
    engineStep s = .next s.drainIn.refillOut := by
  have : ¬ (s.inputComplete ∧ s.run.executed = false) := hi
  simp only [engineStep, h, if_neg this]

end Sys2Proof.Machine
end

