-- ==== Sys2Proof/Laws/Step.lean ====
section
/-! SUPPORT. What one step can do, said once: `step_cases` lists every way a step has a next state. -/

namespace Sys2Proof.Machine

/-- The state an event acts on: the event is taken off the schedule; a narrow write or a STATUS read has
used free values. -/
def State.popped (s : State) (n : Nat) : State := { s with pending := s.pending.tail, fresh := n }

@[simp] theorem State.popped_params (s : State) (n : Nat) : (s.popped n).params = s.params := rfl
@[simp] theorem State.popped_session (s : State) (n : Nat) : (s.popped n).session = s.session := rfl
@[simp] theorem State.popped_ctl (s : State) (n : Nat) : (s.popped n).ctl = s.ctl := rfl
@[simp] theorem State.popped_run (s : State) (n : Nat) : (s.popped n).run = s.run := rfl
@[simp] theorem State.popped_cause (s : State) (n : Nat) : (s.popped n).cause = s.cause := rfl
@[simp] theorem State.popped_faultInfo (s : State) (n : Nat) :
    (s.popped n).faultInfo = s.faultInfo := rfl
@[simp] theorem State.popped_pending (s : State) (n : Nat) :
    (s.popped n).pending = s.pending.tail := rfl
@[simp] theorem State.popped_replies (s : State) (n : Nat) : (s.popped n).replies = s.replies := rfl
@[simp] theorem State.popped_fresh (s : State) (n : Nat) : (s.popped n).fresh = n := rfl

/-- The ways a step has a next state (R52 to R65, R250 to R253, R280). -/
inductive StepCase (s : State) : State → Prop
  /-- A read without side effect, a DOUT read in FAULT among them. -/
  | readQuiet (n : Nat) (v : Word) (r : Reg) (hr : s.readsNext = some r)
      (hq : r ≠ .dout ∨ s.ctl = .fault ∧ v = 0) : StepCase s ((s.popped n).reply v)
  /-- An ignored write, or an engine step outside RUN. -/
  | quiet (n : Nat) (hr : ¬ s.resetNext) (hd : s.readsNext = none) : StepCase s (s.popped n)
  /-- Reset (R280). -/
  | reset (n : Nat) (h : s.resetNext) : StepCase s (s.popped n).engineReset
  /-- A CMD write while BUSY (R57). -/
  | cmdBusy (n : Nat) (w : Word) (hw : s.written = some (.cmd, w)) (hc : s.ctl = .run) :
      StepCase s ((s.popped n).raise .cmdWhileBusy w)
  /-- An illegal word (R57, R88). -/
  | cmdIllegal (n : Nat) (w : Word) (why : Illegal) (hw : s.written = some (.cmd, w))
      (hc : s.ctl = .idle) (hd : decode s.params.ctxPort w = .illegal why) :
      StepCase s ((s.popped n).raise .illegalCmd w)
  /-- A command is presented (R57). -/
  | present (n : Nat) (w : Word) (i : Instr) (t : State) (hw : s.written = some (.cmd, w))
      (hc : s.ctl = .idle) (hd : decode s.params.ctxPort w = .command i)
      (ht : exec i (s.popped n) = .next t) : StepCase s t
  /-- A DIN write that DIN_FREE does not allow (R58). -/
  | dinBad (n : Nat) (v : Word) (hw : s.written = some (.din, v)) (hc : s.ctl ≠ .fault)
      (hf : s.dinFree = false) : StepCase s ((s.popped n).raise .dinUnexpected v)
  /-- An input byte that does not make the command execute (R58). -/
  | dinTake (n : Nat) (v : Word) (hw : s.written = some (.din, v)) (hc : s.ctl = .run)
      (hf : s.dinFree = true)
      (hi : s.run.inBuf.length + 1 = s.run.inNeed → s.params.permLatency ≠ 0) :
      StepCase s ((s.popped n).takeIn (v.extractLsb' 0 8))
  /-- The last input byte: the command executes (R58, R64). -/
  | dinExec (n : Nat) (v : Word) (i : Instr) (t : State) (hw : s.written = some (.din, v))
      (hc : s.ctl = .run) (hf : s.dinFree = true) (hi : s.run.inBuf.length + 1 = s.run.inNeed)
      (hl : s.params.permLatency = 0) (hd : decode s.params.ctxPort s.run.cur = .command i)
      (ht : exec i ((s.popped n).takeIn (v.extractLsb' 0 8)) = .next t) : StepCase s t
  /-- An engine step in which the waiting command executes (R64). -/
  | engineExec (n : Nat) (i : Instr) (t : State)
      (hp : s.pending = [] ∨ s.pending.head? = some .engine)
      (hw : s.written = none) (hr : s.readsNext = none) (hc : s.ctl = .run)
      (hi : s.run.inBuf.length = s.run.inNeed) (he : s.run.executed = false)
      (hd : decode s.params.ctxPort s.run.cur = .command i)
      (ht : exec i (s.popped n).drainIn = .next t) : StepCase s t
  /-- An engine step that moves bytes (R62, R63). -/
  | engineMove (n : Nat) (hp : s.pending = [] ∨ s.pending.head? = some .engine)
      (hw : s.written = none) (hr : s.readsNext = none) (hc : s.ctl = .run)
      (hi : ¬ (s.run.inBuf.length = s.run.inNeed ∧ s.run.executed = false)) :
      StepCase s (s.popped n).drainIn.refillOut
  /-- A DOUT read that DOUT_AVAIL does not allow (R59). -/
  | doutBad (n : Nat) (hr : s.readsNext = some .dout) (hc : s.ctl ≠ .fault)
      (ha : s.doutAvail = false) : StepCase s (((s.popped n).raise .doutEmpty 0).reply 0)
  /-- A DOUT read (R59). -/
  | doutTake (n : Nat) (b : Byte) (rest : List Byte) (hr : s.readsNext = some .dout)
      (hc : s.ctl = .run) (ha : s.doutAvail = true) (hb : s.run.outBuf = b :: rest) :
      StepCase s
        ((State.completeIfDone
          { (s.popped n) with
            run := { s.run with outBuf := rest, outLeft := s.run.outLeft - 1 } }).reply (zext32 b))

/-- The engine's step, read off. -/
theorem engineStep_cases {s t : State} (hp : s.pending = [] ∨ s.pending.head? = some .engine)
    (h : engineStep (s.popped s.fresh) = .next t) : StepCase s t := by
  have hw : s.written = none := by
    rcases hp with hp | hp
    · simp [State.written, hp]
    · cases hl : s.pending with
      | nil => simp [State.written, hl]
      | cons e es => rw [hl] at hp; cases hp; simp [State.written, hl]
  have hr : s.readsNext = none := by
    rcases hp with hp | hp
    · simp [State.readsNext, hp]
    · cases hl : s.pending with
      | nil => simp [State.readsNext, hl]
      | cons e es => rw [hl] at hp; cases hp; simp [State.readsNext, hl]
  have hq : ¬ s.resetNext := by
    rintro (h1 | ⟨v, h1, -⟩)
    · rcases hp with hp | hp
      · simp [hp] at h1
      · rw [hp] at h1; cases h1
    · simp [hw] at h1
  unfold engineStep at h
  cases hc : s.ctl <;> simp only [State.popped_ctl, hc] at h
  · cases h; exact .quiet _ hq hr
  · split at h
    · rename_i hi
      unfold resume at h
      simp only [State.drainIn_params, State.popped_params, State.drainIn_run, State.popped_run] at h
      cases hd : decode s.params.ctxPort s.run.cur with
      | command i => rw [hd] at h; exact .engineExec _ i t hp hw hr hc hi.1 hi.2 hd h
      | illegal why => rw [hd] at h; cases h
    · rename_i hi; cases h; exact .engineMove _ hp hw hr hc hi
  · cases h; exact .quiet _ hq hr

/-- A write, read off. -/
theorem regWrite_cases {s t : State} {n : Nat} {off : BitVec 8} {v : Word}
    (hw : s.written = some (regOf off, v)) (hr : s.readsNext = none)
    (hp : s.pending.head? ≠ some .reset) (h : regWrite off v (s.popped n) = .next t) :
    StepCase s t := by
  have hq : regOf off ≠ .ctrl ∨ v.getLsbD 0 = false → ¬ s.resetNext := by
    rintro h0 (h1 | ⟨v', h1, h2⟩)
    · exact hp h1
    · rw [hw] at h1
      simp only [Option.some.injEq, Prod.mk.injEq] at h1
      obtain ⟨h3, rfl⟩ := h1
      rcases h0 with h0 | h0
      · exact h0 h3
      · rw [h0] at h2; cases h2
  unfold regWrite at h
  split at h <;> rename_i hreg
  · cases h; exact .quiet _ (hq (.inl (by simp [hreg]))) hr
  · cases h; exact .quiet _ (hq (.inl (by simp [hreg]))) hr
  · unfold ctrlWrite at h
    split at h <;> rename_i hv
    · cases h; exact .reset _ (.inr ⟨v, by rw [hw, hreg], hv⟩)
    · cases h; exact .quiet _ (hq (.inr (by simpa using hv))) hr
  · rw [hreg] at hw
    unfold cmdWrite at h
    cases hc : s.ctl <;> simp only [State.popped_ctl, hc, State.popped_params] at h
    · cases hd : decode s.params.ctxPort v with
      | illegal why => rw [hd] at h; cases h; exact .cmdIllegal _ _ why hw hc hd
      | command i => rw [hd] at h; exact .present _ _ i t hw hc hd h
    · cases h; exact .cmdBusy _ _ hw hc
    · cases h; exact .quiet _ (hq (.inl (by simp [hreg]))) hr
  · rw [hreg] at hw
    have hdf : (s.popped n).dinFree = s.dinFree := rfl
    unfold dinWrite at h
    cases hc : s.ctl <;> simp only [State.popped_ctl, hc] at h
    · cases h
      exact .dinBad _ _ hw (by simp [hc]) (by simp [State.dinFree, State.busy, hc])
    · rw [hdf] at h
      split at h <;> rename_i hf
      · split at h <;> rename_i hi <;>
          simp only [State.inputComplete, State.takeIn_run, State.popped_run, List.length_append,
            List.length_singleton, State.popped_params] at hi
        · unfold resume at h
          simp only [State.takeIn_params, State.popped_params, State.takeIn_run,
            State.popped_run] at h
          cases hd : decode s.params.ctxPort s.run.cur with
          | command i => rw [hd] at h; exact .dinExec _ _ i t hw hc hf hi.1 hi.2 hd h
          | illegal why => rw [hd] at h; cases h
        · cases h; exact .dinTake _ _ hw hc hf fun h1 h2 => hi ⟨h1, h2⟩
      · cases h; exact .dinBad _ _ hw (by simp [hc]) (by simpa using hf)
    · cases h; exact .quiet _ (hq (.inl (by simp [hreg]))) hr
  · cases h; exact .quiet _ (hq (.inl (by simp [hreg]))) hr
  · cases h; exact .quiet _ (hq (.inl (by simp [hreg]))) hr
  · cases h; exact .quiet _ (hq (.inl (by simp [hreg]))) hr

/-- A read, read off. -/
theorem regRead_cases {s : State} {off : BitVec 8} (hr : s.readsNext = some (regOf off)) :
    StepCase s (regRead off (s.popped s.fresh)) := by
  unfold regRead
  split <;> rename_i hreg <;> rw [hreg] at hr
  · exact .readQuiet _ _ _ hr (.inl (by simp))
  · unfold statusRead
    cases hc : s.ctl <;> simp only [State.popped_ctl, hc]
    · exact .readQuiet _ _ _ hr (.inl (by simp))
    · exact .readQuiet (s.fresh + 2) (s.popped s.fresh).status _ hr (.inl (by simp))
    · exact .readQuiet _ _ _ hr (.inl (by simp))
  · exact .readQuiet _ _ _ hr (.inl (by simp))
  · exact .readQuiet _ _ _ hr (.inl (by simp))
  · exact .readQuiet _ _ _ hr (.inl (by simp))
  · have hav : (s.popped s.fresh).doutAvail = s.doutAvail := rfl
    unfold doutRead
    split <;> rename_i hc <;> rw [State.popped_ctl] at hc
    · exact .readQuiet _ _ _ hr (.inr ⟨hc, rfl⟩)
    · exact .doutBad _ hr (by simp [hc]) (by simp [State.doutAvail, State.busy, hc])
    · split
      · rename_i b rest ha hb; exact .doutTake _ b rest hr hc ha hb
      · rename_i hno
        refine .doutBad _ hr (by simp [hc]) ?_
        cases ha : s.doutAvail
        · rfl
        · cases hb : s.run.outBuf with
          | nil => simp [State.doutAvail, hb] at ha
          | cons b rest => exact absurd hb (hno b rest (hav.trans ha))
  · exact .readQuiet _ _ _ hr (.inl (by simp))
  · exact .readQuiet _ _ _ hr (.inl (by simp))

/-- Every step that has a next state is one of these cases. -/
theorem step_cases {s t : State} (h : step s = .next t) : StepCase s t := by
  unfold step at h
  cases hp : s.pending with
  | nil =>
    rw [hp] at h
    have hs : s.popped s.fresh = s := by cases s; simp_all [State.popped]
    exact engineStep_cases (.inl hp) (by rw [hs]; exact h)
  | cons e rest =>
    rw [hp] at h
    have hs : ({ s with pending := rest } : State) = s.popped s.fresh := by
      simp [State.popped, hp]
    simp only [hs] at h
    cases e with
    | read addr =>
      simp only [event, State.popped_params] at h
      split at h
      · rename_i off ho
        cases h
        exact regRead_cases (by simp [State.readsNext, hp, ho])
      · cases h
    | write addr v =>
      simp only [event, State.popped_params] at h
      split at h
      · rename_i off ho
        exact regWrite_cases (by simp [State.written, hp, ho]) (by simp [State.readsNext, hp])
          (by simp [hp]) h
      · cases h
    | writeLanes addr v driven =>
      simp only [event, State.popped_params] at h
      split at h
      · rename_i off ho
        exact regWrite_cases (n := s.fresh + 4) (by simp [State.written, hp, ho])
          (by simp [State.readsNext, hp]) (by simp [hp]) h
      · cases h
    | reset =>
      cases h
      exact .reset _ (.inl (by simp [hp]))
    | engine => exact engineStep_cases (.inr (by simp [hp])) h

/-- An event that writes reads nothing. -/
theorem readsNext_of_written {s : State} {x : Reg × Word} (h : s.written = some x) :
    s.readsNext = none := by
  unfold State.written at h
  unfold State.readsNext
  split at h <;> simp_all

/-- The RUN record of a command, clause by clause (R27, R57 to R65). -/
theorem recordOk_iff {s : State} {i : Instr} (hd : decode s.params.ctxPort s.run.cur = .command i) :
    s.recordOk = true ↔
      admitted s.params.ctxPort s.session.mode i = true ∧ s.run.inNeed = inLen i ∧
      (s.run.executed = true →
        s.run.inBuf.length = s.run.inNeed ∧
        s.run.outBuf.length + s.run.outRest.length = s.run.outLeft ∧ 0 < s.run.outLeft ∧
        s.run.outLeft ≤ outLen i ∧ s.run.outBuf.length ≤ s.params.doutDepth) ∧
      (s.run.executed = false →
        s.run.inBuf.length ≤ s.run.inNeed ∧
        (s.run.inBuf.length = s.run.inNeed → 0 < s.params.permLatency) ∧
        s.run.dinHeld ≤ s.run.inBuf.length ∧ s.run.outLeft = outLen i ∧ s.run.outBuf = [] ∧
        s.run.outRest = []) := by
  unfold State.recordOk
  rw [hd]
  cases h : s.run.executed <;> simp [List.isEmpty_iff, and_assoc, or_iff_not_imp_left]

/-- A RUN record that agrees with its command has one. -/
theorem command_of_recordOk {s : State} (h : s.recordOk = true) :
    ∃ i, decode s.params.ctxPort s.run.cur = .command i := by
  unfold State.recordOk at h
  cases hd : decode s.params.ctxPort s.run.cur with
  | command i => exact ⟨i, rfl⟩
  | illegal why => rw [hd] at h; cases h

end Sys2Proof.Machine
end

