-- ==== Sys2Proof/Tests/Slice0.lean ====
section
/-! SUPPORT. Tests of the model against the spec's vectors (95_test_vectors.md), and a witness for the hypotheses of every obligation. -/

namespace Sys2Proof.Tests

open Sys2Proof Sys2Proof.Machine

/-! ### Well-formedness: one ill-formed term per check -/

theorem test_wellFormed_absorb_len : (Instr.absorb 65536 false).wellFormed = false := by decide
theorem test_wellFormed_squeeze_len : (Instr.squeeze 65536 false).wellFormed = false := by decide
theorem test_wellFormed_squeezeKey_len : (Instr.squeezeKey 65536 true).wellFormed = false := by decide
theorem test_wellFormed_encrypt_len : (Instr.encrypt 65536 false).wellFormed = false := by decide
theorem test_wellFormed_decrypt_len : (Instr.decrypt 65536 true).wellFormed = false := by decide
theorem test_wellFormed_klen : (Instr.initKeyed 64 0 0).wellFormed = false := by decide
theorem test_wellFormed_idlen : (Instr.initKeyed 0 64 0).wellFormed = false := by decide
theorem test_wellFormed_clen : (Instr.initKeyed 0 0 256).wellFormed = false := by decide

/-! ### Decoding: a word per constructor, written from the formats of R82 to R84 -/

theorem test_decode_initHash :
    decode .present 0b000000000000000000000000_00000001 = .command .initHash := by decide
/-- CLEN 1, IDLEN 16, KLEN 2: three different fields (R84). -/
theorem test_decode_initKeyed :
    decode .present 0b00000001_00_010000_00_000010_00000010 = .command (.initKeyed 2 16 1) := by decide
theorem test_decode_absorb :
    decode .present 0b0000000000000011_0000000_1_00000011 = .command (.absorb 3 true) := by decide
theorem test_decode_squeeze :
    decode .present 0b0000000000100000_0000000_0_00000100 = .command (.squeeze 32 false) := by decide
theorem test_decode_squeezeKey :
    decode .present 0b1000000000000001_0000000_1_00000101 = .command (.squeezeKey 32769 true) := by
  decide
theorem test_decode_encrypt :
    decode .present 0b0000000000100000_0000000_0_00000110 = .command (.encrypt 32 false) := by decide
theorem test_decode_decrypt :
    decode .present 0b1111111111111111_0000000_0_00000111 = .command (.decrypt 65535 false) := by
  decide
theorem test_decode_ratchet :
    decode .present 0b000000000000000000000000_00001000 = .command .ratchet := by decide
theorem test_decode_permute :
    decode .present 0b000000000000000000000000_00010000 = .command .permute := by decide
theorem test_decode_ctxSave :
    decode .present 0b000000000000000000000000_00010001 = .command .ctxSave := by decide
theorem test_decode_ctxRestore :
    decode .present 0b000000000000000000000000_00010010 = .command .ctxRestore := by decide
/-- The illegal words of 95_test_vectors.md §2.8. -/
theorem test_decode_illegal :
    decode .present 0x01000001 = .illegal .reservedBits ∧
    decode .present 0x00004002 = .illegal .reservedBits ∧
    decode .present 0x00C01002 = .illegal .reservedBits ∧
    decode .present 0x00000100 = .illegal .unlistedOpcode ∧
    decode .present 0x00008005 = .illegal .reservedBits ∧
    decode .present 0x00000009 = .illegal .unlistedOpcode ∧
    decode .present 0x00000013 = .illegal .unlistedOpcode ∧
    decode .present 0x00000000 = .illegal .unlistedOpcode ∧
    decode .absent 0x00000010 = .illegal .noContextPort := by decide
/-- The encoder on the words R93 and 95_test_vectors.md §2.8 write out. -/
theorem test_encode :
    encode (.initKeyed 16 16 1) = 0x01101002 ∧ encode (.absorb 16 true) = 0x00100103 ∧
    encode (.encrypt 32 false) = 0x00200006 := by decide
theorem test_decodeTableWord :
    decodeTableWord 32 0x00100103 = some (.absorb 16 true) ∧ decodeTableWord 32 0x13 = none := by decide

/-! ### Small states -/

/-- The reset state with another session. -/
def idle (d : Session) : State := { State.reset with session := d }

/-- A session of all-zero bytes. -/
def zeroSession (m : Mode) (p : Phase) : Session := { S := zeroBytes, mode := m, phase := p }

/-- Reset parameters with depths of two bytes, and a latency. -/
def smallParams (latency : Nat) : Params :=
  { base := 0x1000, dinDepth := 2, doutDepth := 2, ctxPort := .present, permLatency := latency }

/-- The state in which the command `i` has all its input and has not executed. -/
def ready (i : Instr) (d : Session) (I : List Byte) : State :=
  { State.reset with session := d, ctl := .run,
                     run := { RunRecord.empty with cur := encode i, inNeed := inLen i, inBuf := I,
                                                   outLeft := outLen i } }

/-- A state in FAULT, entered as the spec's row 4 of §2.9: ENCRYPT 0 in Hash mode. -/
def faulted : State := State.reset.raise .modeViolation 0x00000006

/-- The state with `e` as its one pending event. -/
def before (s : State) (e : HostEvent) : State := { s with pending := [e] }

/-- A CMD write and its step. -/
def stepCmd (s : State) (w : Word) : Host.Outcome State Fault Refusal :=
  step (before s (.write (s.params.base + 0x0C) w))

/-- A DIN write and its step. -/
def stepDin (s : State) (v : Word) : Host.Outcome State Fault Refusal :=
  step (before s (.write (s.params.base + 0x10) v))

/-- A read and its step. -/
def stepRead (s : State) (off : Nat) : Host.Outcome State Fault Refusal :=
  step (before s (.read (s.params.base + off)))

/-- The outcome is a next state with the property. -/
def gives (o : Host.Outcome State Fault Refusal) (p : State → Bool) : Bool :=
  match o with
  | .next t => p t
  | .fault _ => false
  | .refused _ => false

/-- CTL, STATUS and FAULT_INFO of a fault row of 95_test_vectors.md §2.9. -/
def inFault (status info : Word) (t : State) : Bool :=
  t.ctl = .fault && t.status = status && t.faultInfo = info

/-- The bytes of S, MODE and PHASE, in IDLE. -/
def hasSession (S : List Byte) (m : Mode) (p : Phase) (t : State) : Bool :=
  t.ctl = .idle && t.session.S.toList = S && t.session.mode = m && t.session.phase = p

/-- The bytes to read from DOUT. -/
def hasOutput (O : List Byte) (t : State) : Bool := t.ctl = .run && t.run.outBuf = O

/-- `00 01 .. n-1`. -/
def count (n : Nat) : List Byte := (List.range n).map (BitVec.ofNat 8)

/-- A session from its 48 bytes. -/
def sessionOf (X : List Byte) (m : Mode) (p : Phase) : Session :=
  { S := imageBytes X, mode := m, phase := p }

/-- After `INIT_KEYED 16, 0, 0` with K: row 1 of §2.3. -/
def keyedK : Session :=
  sessionOf (count 16 ++ [0, 1] ++ List.replicate 29 0 ++ [2]) .keyed .down

/-- After the prefix Π of §2.5. -/
def afterPi : Session :=
  sessionOf
    [0xF2, 0x51, 0xB0, 0xCD, 0xAB, 0xB2, 0x29, 0xAD, 0x94, 0x64, 0xE7, 0x49, 0xD3, 0x04, 0x8E, 0x6D,
     0x0D, 0x15, 0x3E, 0x07, 0x50, 0xC9, 0xCB, 0x0E, 0x7D, 0xC6, 0x07, 0xAA, 0x25, 0x83, 0x73, 0xC6,
     0x90, 0x51, 0x0B, 0x32, 0xDB, 0x6B, 0x50, 0x79, 0x3F, 0xE5, 0xA8, 0x52, 0x5E, 0xD8, 0xDE, 0x31]
    .keyed .down

/-- Row 1's ciphertext in §2.5. -/
def ct32 : List Byte :=
  [0x39, 0x30, 0x26, 0xD5, 0x69, 0x4C, 0xE4, 0x3D, 0x50, 0xED, 0xBD, 0x4E, 0x7B, 0xE3, 0xB7, 0x4F,
   0x6A, 0x1E, 0x20, 0x2C, 0x5A, 0x70, 0xA9, 0x52, 0xDB, 0x39, 0x53, 0x1D, 0xD4, 0x50, 0xC5, 0x47]

/-! ### One step per command, expected values from 95_test_vectors.md -/

/-- R170, from a keyed session. -/
theorem test_initHash :
    gives (stepCmd (idle keyedK) 0x00000001) (hasSession (List.replicate 48 0) .hash .up) = true := by
  decide +kernel

/-- §2.3 row 4: `INIT_KEYED 43, 0, 0` on `00..2A`. -/
theorem test_initKeyed :
    gives (exec (.initKeyed 43 0 0) (ready (.initKeyed 43 0 0) (zeroSession .hash .up) (count 43)))
      (hasSession (count 43 ++ [0, 1, 0, 0, 2]) .keyed .down) = true := by decide +kernel

/-- §2.3 row 9: KEY_LENGTH at the CMD write. -/
theorem test_initKeyed_key_length :
    gives (stepCmd State.reset 0x00002C02) (inFault 0x00000308 0x00002C02) = true := by decide

/-- §2.2 row 3: the last DIN byte of `ABSORB 3` on `616263`. -/
theorem test_absorb :
    gives (stepDin (ready (.absorb 3 false) Session.reset [0x61, 0x62]) 0xFFFFFF63)
      (hasSession ([0x61, 0x62, 0x63, 0x01] ++ List.replicate 43 0 ++ [0x01]) .hash .down) = true := by
  decide

/-- §2.2 row 5: `ABSORB 17` on `00..10`, one permutation. -/
theorem test_absorb_two_blocks :
    gives (exec (.absorb 17 false) (ready (.absorb 17 false) Session.reset (count 17)))
      (fun t => (t.session.S.toList.take 8 =
        [0x8E, 0xA7, 0x95, 0x34, 0x7C, 0xDD, 0xDF, 0xF9] : Bool)) = true := by decide +kernel

/-- §2.2 row 18: `SQUEEZE 16` from reset. -/
theorem test_squeeze :
    gives (stepCmd State.reset 0x00100004)
      (hasOutput [0x8D, 0xD8, 0xD5, 0x89, 0xBF, 0xFC, 0x63, 0xA9, 0x19, 0x2D, 0x23, 0x1B, 0x14, 0xA0,
        0xA5, 0xFF]) = true := by decide +kernel

/-- §2.2 row 21: `SQUEEZE.c 16` from reset. -/
theorem test_squeeze_cont :
    gives (stepCmd State.reset 0x00100104)
      (hasOutput [0x1B, 0xDF, 0x32, 0x8C, 0xF1, 0x7D, 0xBE, 0xDB, 0x66, 0x49, 0x27, 0x6E, 0x46, 0x7D,
        0x11, 0xE4]) = true := by decide +kernel

/-- §2.4 row 8: `SQUEEZE_KEY 16`. -/
theorem test_squeezeKey :
    gives (stepCmd (idle keyedK) 0x00100005)
      (hasOutput [0x4D, 0x65, 0x23, 0xEA, 0x65, 0x56, 0x39, 0x6D, 0x06, 0xE7, 0x06, 0x12, 0xFD, 0xDC,
        0x7B, 0x1F]) = true := by decide +kernel

/-- §2.9 row 3: SQUEEZE_KEY in Hash mode. -/
theorem test_squeezeKey_mode :
    gives (stepCmd State.reset 0x00000105) (inFault 0x00000208 0x00000105) = true := by decide

/-- §2.5 row 1: `ENCRYPT 32` after Π, two blocks. -/
theorem test_encrypt :
    gives (exec (.encrypt 32 false) (ready (.encrypt 32 false) afterPi (count 32))) (hasOutput ct32) =
      true := by decide +kernel

/-- §2.5 row 3: `DECRYPT 32` after Π, two blocks. -/
theorem test_decrypt :
    gives (exec (.decrypt 32 false) (ready (.decrypt 32 false) afterPi ct32)) (hasOutput (count 32)) =
      true := by decide +kernel

/-- §2.4 row 10: RATCHET. -/
theorem test_ratchet :
    gives (stepCmd (idle keyedK) 0x00000008)
      (fun t => (t.ctl = .idle && t.session.S.toList.take 24 =
        List.replicate 16 0 ++ [0xEC, 0x26, 0xA8, 0xB6, 0xEF, 0xCD, 0xD3, 0xFB] : Bool)) = true := by
  decide +kernel

/-- §2.1: PERMUTE on `00 01 .. 2F`; MODE and PHASE stay. -/
theorem test_permute :
    gives (stepCmd (idle (sessionOf (count 48) .keyed .down)) 0x00000010)
      (hasSession
        [0x76, 0x33, 0xAE, 0xB5, 0x5D, 0xCC, 0xBF, 0x60, 0xD4, 0xA6, 0xDF, 0xD7, 0x50, 0x6D, 0x06, 0xBF,
         0xB2, 0xAC, 0x97, 0xAE, 0x97, 0x0D, 0x8A, 0xD3, 0x13, 0x85, 0x11, 0x7B, 0xB7, 0x75, 0xA7, 0x41,
         0xB3, 0xB1, 0x54, 0x0B, 0xB5, 0x3B, 0xE9, 0x6F, 0x3B, 0x2B, 0x8F, 0xAF, 0xA6, 0x76, 0xA3, 0xB6]
        .keyed .down) = true := by decide +kernel

/-- §2.6 row 7: without the context port. -/
theorem test_permute_no_port :
    gives (stepCmd { State.reset with params := { Params.reference with ctxPort := .absent } } 0x10)
      (inFault 0x00000108 0x00000010) = true := by decide

/-- §2.6 row 3: CTX_SAVE after `INIT_KEYED 16, 0, 0`. -/
theorem test_ctxSave :
    gives (stepCmd (idle keyedK) 0x00000011)
      (hasOutput (count 16 ++ [0, 1] ++ List.replicate 29 0 ++ [2, 1])) = true := by decide

/-- §2.6 row 4's image restored: Keyed, Down. -/
theorem test_ctxRestore :
    gives (exec .ctxRestore (ready .ctxRestore Session.reset (contextImage afterPi)))
      (fun t => (t.ctl = .idle && t.session = afterPi : Bool)) = true := by decide +kernel

/-- §2.6 row 6: the context byte 0x04, at the 49th DIN write. -/
theorem test_ctxRestore_invalid :
    gives (stepDin (ready .ctxRestore keyedK (List.replicate 48 0)) 0x00000004)
      (inFault 0x00000708 0x00000004) = true := by decide +kernel

/-! ### Registers and faults (§2.9) -/

theorem test_reset_status : State.reset.status = 0x00020000 := by decide
theorem test_illegal : gives (stepCmd State.reset 0) (inFault 0x00000108 0) = true := by decide
theorem test_cmd_while_busy :
    gives (stepCmd (ready (.absorb 3 false) Session.reset []) 1) (inFault 0x00000408 1) = true := by
  decide
theorem test_din_unexpected :
    gives (stepDin State.reset 0x1FF) (inFault 0x00000508 0x1FF) = true := by decide
theorem test_dout_empty :
    gives (stepRead State.reset 0x14) (fun t => inFault 0x00000608 0 t && t.replies = [0]) = true := by
  decide
/-- Row 15: CTRL.SRST leaves FAULT. -/
theorem test_srst :
    gives (step (before faulted (.write 0x08 1))) (fun t => (t = State.reset : Bool)) = true := by decide
/-- P1: ID, read at offset 0x03, whose low address bits are ignored (R52). -/
theorem test_id :
    gives (stepRead State.reset 0x03) (fun t => (t.replies = [0x58445901] : Bool)) = true := by decide
/-- The word `withFetchWord` places runs at the very next step: SQUEEZE_KEY in Hash mode. -/
theorem test_withFetchWord :
    gives (step (State.reset.withFetchWord 32 0x00000005)) (inFault 0x00000208 0x00000005) = true := by
  decide

/-! ### Witnesses: a state and operands that meet the hypotheses of each obligation -/

/-- RUN: `ABSORB 2`, with the bytes received so far. -/
def absorbing (I : List Byte) : State := ready (.absorb 2 false) Session.reset I

/-- RUN: `SQUEEZE n` executed, with bytes left to read. -/
def squeezing (n : Nat) (O : List Byte) : State :=
  { ready (.squeeze n false) Session.reset [] with
    run := { RunRecord.empty with cur := encode (.squeeze n false), executed := true, outBuf := O,
                                  outLeft := O.length } }

/-- A latency makes a command with all its input wait in RUN. -/
def waiting (i : Instr) (I : List Byte) : State :=
  { ready i Session.reset I with params := smallParams 1 }

theorem witness_DecodeOfEncodeIsTheCommand :
    Instr.WellFormed .initHash ∧ (Instr.initKeyed 63 63 255).WellFormed ∧
    (Instr.absorb 65535 true).WellFormed ∧ (Instr.squeeze 65535 false).WellFormed ∧
    (Instr.squeezeKey 0 true).WellFormed ∧ (Instr.encrypt 65535 true).WellFormed ∧
    (Instr.decrypt 65535 false).WellFormed ∧ Instr.WellFormed .ratchet ∧
    Instr.WellFormed .permute ∧ Instr.WellFormed .ctxSave ∧ Instr.WellFormed .ctxRestore := by decide

theorem witness_LegalWordsAreEncodings :
    decode .present 0xFF3F3F02 = .command (.initKeyed 63 63 255) ∧
    decode .absent 0xFFFF0103 = .command (.absorb 65535 true) ∧
    decode .present 0x00000010 = .command .permute ∧
    (Instr.permute = .permute ∨ Instr.permute = .ctxSave ∨ Instr.permute = .ctxRestore) := by decide

theorem witness_LegalWordsAreTheTableRows :
    let s := before State.reset (.write 0x0C 0x00000009)
    s.ctl = .idle ∧ s.written = some (.cmd, 0x00000009) ∧
    decode s.params.ctxPort 0x00000009 = .illegal .unlistedOpcode := by decide

theorem witness_DecodeWithoutTheContextPort :
    opcOf 0xFFFFFF10 = 0x10 ∧ opcOf 0x00000011 = 0x11 ∧ opcOf 0x00000012 = 0x12 ∧
    ¬ (opcOf 0x00000013 = 0x10 ∨ opcOf 0x00000013 = 0x11 ∨ opcOf 0x00000013 = 0x12) := by decide

theorem witness_StepRunsThePresentedCommand :
    let s := before State.reset (.write 0x0F 0x00020003)
    s.pending = .write 0x0F 0x00020003 :: [] ∧ windowOffset s.params 0x0F = some 0x0F ∧
    regOf 0x0F = .cmd ∧ s.ctl = .idle ∧
    decode s.params.ctxPort 0x00020003 = .command (.absorb 2 false) := by decide

theorem witness_StepRunsTheCommandWhenItsInputIsComplete :
    (let s := before (absorbing [1]) (.write 0x10 7)
     s.pending = .write 0x10 7 :: [] ∧ windowOffset s.params 0x10 = some 0x10 ∧ regOf 0x10 = .din ∧
     s.ctl = .run ∧ s.dinFree = true ∧ s.run.inBuf.length + 1 = s.run.inNeed ∧
     s.params.permLatency = 0 ∧ decode s.params.ctxPort s.run.cur = .command (.absorb 2 false)) ∧
    (let s := before (waiting (.absorb 2 false) [1, 2]) .engine
     s.pending = .engine :: [] ∧ s.ctl = .run ∧ s.run.inBuf.length = s.run.inNeed ∧
     s.run.executed = false ∧ decode s.params.ctxPort s.run.cur = .command (.absorb 2 false)) := by
  decide

theorem witness_FetchWordRunsNext :
    State.reset.ctl = .idle ∧
    decode State.reset.params.ctxPort 0xFFFF0003 = .command (.absorb 65535 false) := by decide

theorem witness_CmdWriteChecksInOrder :
    windowOffset State.reset.params 0x0C = some 0x0C ∧ regOf 0x0C = .cmd ∧
    faulted.ctl = .fault ∧ (absorbing []).ctl = .run ∧ State.reset.ctl = .idle ∧
    decode .present 0 = .illegal .unlistedOpcode ∧
    (decode .present 0x00000105 = .command (.squeezeKey 0 true) ∧
      decode .present 0x00020006 = .command (.encrypt 2 false) ∧
      decode .present 0x00020007 = .command (.decrypt 2 false) ∧
      decode .present 0x00000008 = .command .ratchet ∧ State.reset.session.mode = .hash) ∧
    (decode .present 0x00000002 = .command (.initKeyed 0 0 0) ∧ (0 = 0 ∨ 44 < 0 + 0 + 1)) ∧
    (decode .present 0x00012B02 = .command (.initKeyed 43 1 0) ∧ (43 = 0 ∨ 44 < 43 + 1 + 1)) := by
  decide

theorem witness_AcceptedCommandStartsItsRecord :
    State.reset.ctl = .idle ∧ admitted .present .hash .permute = true ∧ inLen .permute = 0 ∧
    State.reset.params.permLatency = 0 ∧
    admitted .present .hash (.initKeyed 43 0 0) = true ∧ inLen (.initKeyed 43 0 0) ≠ 0 ∧
    (smallParams 1).permLatency ≠ 0 := by decide

theorem witness_InitHashStartsAHashSession : (ready .initHash keyedK []).ReadyFor .initHash := by decide

theorem witness_InitKeyedAbsorbsKeyIdAndCounter :
    (ready (.initKeyed 1 0 0) Session.reset [0xAA]).ReadyFor (.initKeyed 1 0 0) ∧
    (ready (.initKeyed 1 1 1) Session.reset [1, 2, 3]).ReadyFor (.initKeyed 1 1 1) := by decide

theorem witness_AbsorbAbsorbsTheInput :
    (absorbing [1, 2]).ReadyFor (.absorb 2 false) ∧
    (ready (.absorb 0 true) keyedK []).ReadyFor (.absorb 0 true) ∧
    1 ≤ 16 ∧ ([] : List Byte).length ≤ 16 ∧ (count 16).length ≤ 16 ∧ 16 < (count 17).length := by decide

theorem witness_SqueezeAndSqueezeKeyGiveTheirBytes :
    (ready (.squeeze 0 true) Session.reset []).ReadyFor (.squeeze 0 true) ∧
    (ready (.squeeze 16 false) Session.reset []).ReadyFor (.squeeze 16 false) ∧
    (ready (.squeezeKey 0 false) keyedK []).ReadyFor (.squeezeKey 0 false) ∧
    (ready (.squeezeKey 25 true) keyedK []).ReadyFor (.squeezeKey 25 true) ∧ 25 ≠ 0 := by decide

theorem witness_EncryptAndDecryptCryptTheInput :
    (ready (.encrypt 0 false) keyedK []).ReadyFor (.encrypt 0 false) ∧
    (ready (.encrypt 2 true) keyedK [1, 2]).ReadyFor (.encrypt 2 true) ∧
    (ready (.decrypt 0 true) keyedK []).ReadyFor (.decrypt 0 true) ∧
    (ready (.decrypt 2 false) keyedK [1, 2]).ReadyFor (.decrypt 2 false) ∧
    ([] : List Byte).length ≤ 24 ∧ (count 24).length ≤ 24 ∧ 24 < (count 25).length := by decide

theorem witness_RatchetFoldsTheState : (ready .ratchet keyedK []).ReadyFor .ratchet := by decide

theorem witness_PermuteAppliesThePermutation :
    (ready .permute Session.reset []).ReadyFor .permute := by decide

theorem witness_CtxSaveOutputsTheImage : (ready .ctxSave keyedK []).ReadyFor .ctxSave := by decide

/-- Both clauses, at the values 0x03 and 0x04 where they meet. -/
theorem witness_CtxRestoreLoadsTheImage :
    ((ready .ctxRestore Session.reset (List.replicate 48 0 ++ [3])).ReadyFor .ctxRestore ∧
      (List.replicate 48 0 ++ [(3 : Byte)])[48]? = some 3 ∧ (3 : Byte).extractLsb' 2 6 = 0) ∧
    ((ready .ctxRestore Session.reset (List.replicate 48 0 ++ [4])).ReadyFor .ctxRestore ∧
      (List.replicate 48 0 ++ [(4 : Byte)])[48]? = some 4 ∧ (4 : Byte).extractLsb' 2 6 ≠ 0) := by decide

theorem witness_NoInputCommandsExecuteWhenPresented :
    State.reset.ctl = .idle ∧ State.reset.params.permLatency = 0 ∧
    (∀ i ∈ [Instr.initHash, .absorb 0 false, .squeeze 16 false, .permute, .ctxSave],
      inLen i = 0 ∧ admitted .present .hash i = true) ∧
    (∀ i ∈ [Instr.squeezeKey 16 false, .encrypt 0 false, .decrypt 0 false, .ratchet],
      inLen i = 0 ∧ admitted .present .keyed i = true) := by decide

/-- A command that faults, one that is only accepted, one that completes, and CTX_SAVE. -/
theorem witness_CommandsFrame :
    gives (exec .ratchet State.reset) (fun t => (t.ctl = .fault : Bool)) = true ∧
    gives (exec (.absorb 1 false) State.reset)
      (fun t => (t.run.executed = false ∧ t.ctl = .run : Bool)) = true ∧
    gives (exec .initHash State.reset) (fun t => (t.ctl = .idle : Bool)) = true ∧
    gives (exec .ctxSave State.reset) (fun t => (t.ctl = .run : Bool)) = true := by decide

theorem witness_DinWriteDeliversOneByte :
    windowOffset State.reset.params 0x10 = some 0x10 ∧ regOf 0x10 = .din ∧
    State.reset.params.permLatency = 0 ∧ faulted.ctl = .fault ∧ State.reset.ctl = .idle ∧
    ((squeezing 2 [5, 6]).ctl = .run ∧ (squeezing 2 [5, 6]).dinFree = false) ∧
    ((absorbing []).ctl = .run ∧ (absorbing []).dinFree = true ∧ 0 + 1 ≠ (absorbing []).run.inNeed) ∧
    ((absorbing [1]).dinFree = true ∧ 1 + 1 = (absorbing [1]).run.inNeed ∧
      decode .present (absorbing [1]).run.cur = .command (.absorb 2 false)) ∧
    (let s := waiting (.absorb 2 false) [1]
     windowOffset s.params 0x1010 = some 0x10 ∧ s.ctl = .run ∧ s.dinFree = true ∧
     s.params.permLatency ≠ 0) := by decide

theorem witness_DoutReadRemovesOneByte :
    windowOffset State.reset.params 0x14 = some 0x14 ∧ regOf 0x14 = .dout ∧
    faulted.ctl = .fault ∧ State.reset.ctl = .idle ∧
    ((absorbing []).ctl = .run ∧ (absorbing []).doutAvail = false) ∧
    ((squeezing 2 [5, 6]).doutAvail = true ∧ (squeezing 2 [5, 6]).run.outBuf = 5 :: [6] ∧
      (squeezing 2 [5, 6]).run.outLeft = 2) ∧
    ((squeezing 2 [6]).doutAvail = true ∧ (squeezing 2 [6]).run.outBuf = 6 :: [] ∧
      (squeezing 2 [6]).run.outLeft = 1) := by decide

theorem witness_StatusShowsTheEngine : (idle keyedK).ctl = .idle ∧ faulted.ctl = .fault := by decide

theorem witness_ReadsWithoutSideEffects :
    (∀ off ∈ [(0x00 : BitVec 8), 0x04, 0x08, 0x0C, 0x10, 0x18, 0x1C, 0xFC],
      windowOffset State.reset.params off.toNat = some off ∧ regOf off ≠ .dout) ∧
    (before (absorbing []) (.read 0x04)).pending = .read 0x04 :: [] := by decide

theorem witness_IgnoredWritesChangeNothing :
    (∀ off ∈ [(0x00 : BitVec 8), 0x04, 0x08, 0x14, 0x18, 0x1C, 0xFC],
      windowOffset State.reset.params off.toNat = some off ∧
      (regOf off = .id ∨ regOf off = .status ∨ regOf off = .dout ∨ regOf off = .faultInfo ∨
        regOf off = .reserved ∨ regOf off = .ctrl ∧ (0xFFFFFFFE : Word).getLsbD 0 = false)) ∧
    (before State.reset (.write 0x08 0xFFFFFFFE)).pending = .write 0x08 0xFFFFFFFE :: [] := by decide

theorem witness_LowAddressBitsAreIgnored : (0x1C : BitVec 8) ≤ 0x1C ∧ (0x1C : BitVec 8) ≤ 0xFF := by
  decide

theorem witness_NarrowWriteIsAFullWrite :
    (before State.reset (.writeLanes 0x10 0x44332211 0b0001)).pending =
      .writeLanes 0x10 0x44332211 0b0001 :: [] ∧ (0b0001 : BitVec 4).getLsbD 0 = true := by decide

/-- The invariant, with input missing, with a command due, and with output behind the buffer. -/
theorem witness_EngineStepMakesThePortsReady :
    (let s := before { absorbing [1] with params := smallParams 0 } .engine
     s.Inv ∧ s.ctl = .run ∧ s.pending = .engine :: [] ∧ s.run.inBuf.length < s.run.inNeed) ∧
    (let s := before (waiting (.squeeze 3 false) []) .engine
     s.Inv ∧ s.ctl = .run ∧ s.pending = .engine :: [] ∧ s.run.inBuf.length = s.run.inNeed ∧
     0 < s.run.outLeft) := by decide

theorem witness_FaultEntryKeepsTheSession :
    gives (step (before State.reset (.read 0x14))) (fun t => (t.ctl = .fault : Bool)) = true ∧
    gives (step (before (absorbing [1]) (.write 0x0C 1))) (fun t => (t.ctl = .fault : Bool)) = true ∧
    State.reset.ctl ≠ .fault ∧ (absorbing [1]).ctl ≠ .fault := by decide

/-- A state with the invariant, and an event that raises the cause, for each of the seven; CTX_INVALID at
the last DIN write and, with latency, at an engine step. -/
theorem witness_FaultInfoRecordsTheAccess :
    ∀ x ∈ [(before State.reset (.write 0x0C 0x00000009), Cause.illegalCmd),
           (before State.reset (.write 0x0C 0x00000008), .modeViolation),
           (before State.reset (.write 0x0C 0x00012B02), .keyLength),
           (before (absorbing [1]) (.write 0x0C 0x00000001), .cmdWhileBusy),
           (before State.reset (.write 0x10 0x000001FF), .dinUnexpected),
           (before State.reset (.read 0x14), .doutEmpty),
           (before (ready .ctxRestore Session.reset (List.replicate 48 0)) (.write 0x10 4),
            .ctxInvalid),
           (before (waiting .ctxRestore (List.replicate 48 0 ++ [4])) .engine, .ctxInvalid)],
      x.1.Inv ∧ x.1.ctl ≠ .fault ∧
      gives (step x.1) (fun t => (t.ctl = .fault ∧ t.cause = x.2 : Bool)) = true := by decide

theorem witness_FaultIsLeftOnlyByReset :
    (before faulted .reset).resetNext ∧ faulted.ctl = .fault ∧
    (∃ t, step (before faulted .reset) = .next t) ∧
    ¬ (before faulted (.read 0x14)).resetNext ∧
    (before faulted (.read 0x14)).readsNext = some .dout ∧
    (∃ t, step (before faulted (.read 0x14)) = .next t) := by
  refine ⟨.inl rfl, rfl, ⟨_, rfl⟩, ?_, by decide, ⟨_, rfl⟩⟩
  rintro (h | ⟨v, h, -⟩)
  · exact absurd h (by decide)
  · exact absurd h (by simp [State.written, before])

theorem witness_FaultHidesTheSession : (before faulted (.read 0x04)).ctl = .fault := by decide

theorem witness_NoReadDependsOnS :
    (before (absorbing []) (.read 0x04)).pending = .read 0x04 :: [] := by decide

theorem witness_ResetFromEveryState :
    (before (absorbing [1]) .reset).pending = .reset :: [] ∧
    (before (absorbing [1]) (.write 0x08 1)).pending = .write 0x08 1 :: [] ∧
    windowOffset (absorbing [1]).params 0x08 = some 0x08 ∧ regOf 0x08 = .ctrl ∧
    (1 : Word).getLsbD 0 = true := by decide

theorem witness_ProtocolHostMeetsOnlyContractFaults :
    let s := before State.reset (.write 0x0C 0x00000008)
    s.Inv ∧ s.hostObeys (.write 0x0C 0x00000008) = true ∧ s.ctl ≠ .fault ∧
    gives (step s) (fun t => (t.ctl = .fault : Bool)) = true := by decide

theorem witness_DownXorsBlockPaddingAndFlag :
    (List.replicate 44 (0 : Byte)).length ≤ 44 ∧ ([] : List Byte).length ≤ 44 := by decide

theorem witness_UpInjectsItsFlagAndPermutes :
    zeroBytes[47]? = some 0 ∧ (sessionOf [] .hash .up).mode = .hash ∧ 16 ≤ 16 ∧
    keyedK.mode = .keyed ∧ 24 ≤ 24 := by decide

theorem witness_SplitCutsAtTheRate :
    1 ≤ 16 ∧ 0 < (split [] 16).length ∧ 1 < (split (count 17) 16).length ∧ count 17 ≠ [] := by decide

theorem witness_OutputHasItsLength :
    ([] : List Byte).length = inLen (.squeeze 17 false) ∧
    ∃ d O, transaction (.squeeze 17 false) Session.reset [] = .done d O := ⟨rfl, _, _, rfl⟩

theorem witness_ContinuationChunksEqualTheWholeOperation :
    SplitsAtRate 16 (List.replicate 16 0) [List.replicate 32 1, [2, 3]] ∧
    CountsSplitAtRate (squeezeRate .keyed) 24 [48, 1] ∧
    SplitsAtRate 24 (List.replicate 24 0) [[1]] := by decide

theorem witness_CryptLeavesTheCiphertextInTheState :
    (split (count 25) 24).getLast? = some [24] ∧ (split [] 24).getLast? = some [] := by decide

theorem witness_RatchetZeroesTheFirstBytes :
    ∃ d O, transaction .ratchet keyedK [] = .done d O := ⟨_, _, rfl⟩

theorem witness_SavedContextRestoresTheSession :
    transaction .ctxSave keyedK [] = .done keyedK (contextImage keyedK) := rfl

/-- The first byte of plane A and the last of plane C. -/
theorem witness_PlanesAndBytesAgree :
    (0 < 48 ∧ 0 / 16 = 0 ∧ (planesOf zeroBytes).A[(0 % 16) / 4]? = some 0) ∧
    (47 < 48 ∧ 47 / 16 = 2 ∧ (planesOf zeroBytes).C[(47 % 16) / 4]? = some 0) := by decide

theorem test_window_edges :
    windowOffset State.reset.params 0xFF = some 0xFF ∧ windowOffset State.reset.params 0x100 = none := by
  decide

theorem witness_RhoEastIsTheByteTable :
    rhoEastTable[0]? = some 11 ∧ rhoEastTable[15]? = some 6 ∧ 0 < 4 ∧ 3 < 4 := by decide

/-- The two clauses at their boundary values. -/
theorem witness_KeyLengthLimits :
    State.reset.ctl = .idle ∧ (1 ≤ 43 ∧ 43 ≤ 43 ∧ 0 ≤ 43 - 43) ∧ (1 ≤ 1 ∧ 1 ≤ 43 ∧ 42 ≤ 43 - 1) ∧
    (0 = 0 ∨ 44 ≤ 0 + 0) ∧ (44 = 0 ∨ 44 ≤ 44 + 0) ∧ (1 = 0 ∨ 44 ≤ 1 + 43) := by decide

theorem witness_StepKeepsTheInvariant :
    (before State.reset (.write 0x0C 0x00020003)).Inv ∧
    (before (squeezing 2 [5, 6]) (.read 0x14)).Inv ∧
    gives (step (before State.reset (.write 0x0C 0x00020003))) (fun t => (t.ctl = .run : Bool)) = true ∧
    gives (step (before (squeezing 2 [5, 6]) (.read 0x14))) (fun t => (t.ctl = .run : Bool)) = true := by
  decide

theorem witness_StepNeverStopsInsideTheWindow :
    (before State.reset (.write 0xFF 0)).Inv ∧
    inWindow (before State.reset (.write 0xFF 0)).params (.write 0xFF 0) = true := by decide

/-- INIT_HASH at its CMD write, and CTX_RESTORE at its last DIN write, in a Keyed session. -/
theorem witness_OnlySessionCommandsWriteMode :
    gives (stepCmd (idle keyedK) 1) (fun t => (t.session.mode ≠ keyedK.mode : Bool)) = true ∧
    gives (stepDin (ready .ctxRestore keyedK (List.replicate 48 0)) 0)
      (fun t => (t.session.mode ≠ keyedK.mode : Bool)) = true := by decide

/-- A reset, a last DIN write, and a CMD write, each in a session it changes. -/
theorem witness_SessionChangesOnlyWhenACommandExecutes :
    gives (step (before (idle keyedK) .reset))
      (fun t => (t.session.mode ≠ keyedK.mode : Bool)) = true ∧
    gives (stepDin (absorbing [1]) 2) (fun t => (t.session.phase ≠ .up : Bool)) = true ∧
    gives (stepCmd (idle keyedK) 1) (fun t => (t.session.mode ≠ keyedK.mode : Bool)) = true := by
  decide

theorem witness_ModeAndPhaseAfterEachCommand :
    (∀ i ∈ [Instr.initHash, .initKeyed 1 1 1, .absorb 2 false, .squeeze 0 true, .squeeze 16 false,
        .squeezeKey 0 true, .squeezeKey 1 false, .encrypt 0 false, .decrypt 0 true, .ratchet, .permute,
        .ctxSave],
      ∃ d O, transaction i keyedK [1, 2, 3] = .done d O) ∧
    ∃ d, transaction .ctxRestore keyedK (List.replicate 48 0 ++ [2]) = .done d [] := by
  refine ⟨?_, ⟨_, rfl⟩⟩
  simp only [List.forall_mem_cons, List.not_mem_nil, false_implies, implies_true, and_true]
  exact ⟨⟨_, _, rfl⟩, ⟨_, _, rfl⟩, ⟨_, _, rfl⟩, ⟨_, _, rfl⟩, ⟨_, _, rfl⟩, ⟨_, _, rfl⟩, ⟨_, _, rfl⟩,
    ⟨_, _, rfl⟩, ⟨_, _, rfl⟩, ⟨_, _, rfl⟩, ⟨_, _, rfl⟩, ⟨_, _, rfl⟩⟩

/-- ENCRYPT of two bytes in a Keyed session, and a host that serves it. -/
theorem witness_RefServiceGivesTheTransaction :
    (let s : State := { idle keyedK with
       pending := serveRef Params.reference (.encrypt 2 false) [1, 2] 2 ++ [.engine] }
     s.Inv ∧ s.ctl = .idle ∧ s.params.permLatency = 0 ∧ inLen (.encrypt 2 false) ≤ s.params.dinDepth ∧
     outLen (.encrypt 2 false) ≤ s.params.doutDepth ∧ (Instr.encrypt 2 false).WellFormed ∧
     admitted s.params.ctxPort s.session.mode (.encrypt 2 false) = true ∧
     [(1 : Byte), 2].length = inLen (.encrypt 2 false)) ∧
    ∃ d O, transaction (.encrypt 2 false) keyedK [1, 2] = .done d O := by
  refine ⟨by decide, ⟨_, _, rfl⟩⟩

/-- The same on an engine with depths of two bytes and a latency. -/
theorem witness_PacedServiceGivesTheTransaction :
    (let s : State := { idle keyedK with
       params := smallParams 1
       pending := servePaced (smallParams 1) (.encrypt 3 false) [1, 2, 3] 3 ++ [.reset] }
     s.Inv ∧ s.ctl = .idle ∧ (Instr.encrypt 3 false).WellFormed ∧
     admitted s.params.ctxPort s.session.mode (.encrypt 3 false) = true ∧
     [(1 : Byte), 2, 3].length = inLen (.encrypt 3 false)) ∧
    ∃ d O, transaction (.encrypt 3 false) keyedK [1, 2, 3] = .done d O := by
  refine ⟨by decide, ⟨_, _, rfl⟩⟩

end Sys2Proof.Tests
end

/-! PROOFS. Two facts about every command: its word decodes to it, and its transaction gives OutLen
bytes. -/

namespace Sys2Proof.Machine

/-! ### The command word -/

/-- The word of a well-formed command decodes to the command wherever its port exists (R89, R90, R93). -/
theorem decode_encode (port : CtxPort) (i : Instr) (hw : i.WellFormed)
    (hp : needsCtxPort i = true → port = .present) : decode port (encode i) = .command i := by
  cases i with
  | initHash | ratchet =>
    simp [decode, encode, Instr.opcode, opcOf_encodeN, decodeN, encodeN_reserved]
  | permute | ctxSave | ctxRestore =>
    simp [decode, encode, Instr.opcode, opcOf_encodeN, decodeCtx, encodeN_reserved, hp rfl]
  | initKeyed klen idlen clen =>
    obtain ⟨⟨hk, hd⟩, hc⟩ : (klen < 2 ^ 6 ∧ idlen < 2 ^ 6) ∧ clen < 2 ^ 8 := by
      simpa [Instr.WellFormed, Instr.wellFormed, keyFieldFits, clenFits] using hw
    simp [decode, encode, Instr.opcode, opcOf_encodeK, decodeK, encodeK_reserved _ _ _ _ hk hd,
      klenOf_encodeK _ _ _ _ hk, idlenOf_encodeK _ _ _ _ hk hd, clenOf_encodeK _ _ _ _ hk hd hc]
  | absorb len cont | squeeze len cont | squeezeKey len cont | encrypt len cont
  | decrypt len cont =>
    have hl : len < 2 ^ 16 := by simpa [Instr.WellFormed, Instr.wellFormed, lenFits] using hw
    simp [decode, encode, Instr.opcode, opcOf_encodeL, decodeL, encodeL_reserved,
      lenOf_encodeL _ _ _ hl, contOf_encodeL]

/-- An admitted command has its port (R57, R89). -/
theorem ctxPort_of_admitted {port : CtxPort} {m : Mode} {i : Instr} (h : admitted port m i = true)
    (hp : needsCtxPort i = true) : port = .present := by
  unfold admitted at h
  cases port <;> simp_all

/-! ### Output lengths -/

/-- The blocks of a split, joined, are the input (R145). -/
theorem flatten_split (X : List Byte) (r : Nat) (hr : 1 ≤ r) : (split X r).flatten = X := by
  induction hn : X.length using Nat.strong_induction_on generalizing X with
  | _ n ih =>
    rcases Nat.lt_or_ge r X.length with h | h
    · rw [split_of_lt X r hr h, List.flatten_cons,
        ih (X.drop r).length (by rw [List.length_drop]; omega) _ rfl, List.take_append_drop]
    · rw [split_of_le X r hr h, List.flatten_singleton]

/-- No block of a split is longer than the rate (R145). -/
theorem length_le_of_mem_split {X b : List Byte} {r : Nat} (h : b ∈ split X r) : b.length ≤ r := by
  obtain ⟨k, -, rfl⟩ := List.mem_map.1 h
  exact List.length_take_le _ _

/-- Crypt gives as many bytes as it takes (R148). -/
@[simp] theorem length_crypt (d : Session) (I : List Byte) (dir : Direction) (cu : Flag) :
    (crypt d I dir cu).2.length = I.length := by
  have hb : ∀ b ∈ split I cryptRate, b.length ≤ 48 := fun b h =>
    (length_le_of_mem_split h).trans (by decide)
  rw [crypt, cryptBlocks_length _ _ _ _ hb, flatten_split _ _ (by decide)]

/-- A transaction that succeeds gives OutLen bytes (R92). -/
theorem length_output {i : Instr} {d d' : Session} {I O : List Byte} (hI : I.length = inLen i)
    (h : transaction i d I = .done d' O) : O.length = outLen i := by
  cases i with
  | squeeze len cont =>
    obtain ⟨-, rfl⟩ := TxnResult.done.inj h
    cases cont
    · exact (squeezeAny_spec d len .squeeze).2.2
    · exact (squeezeCont_spec d len).2.1
  | squeezeKey len cont =>
    obtain ⟨-, rfl⟩ := TxnResult.done.inj h
    cases cont
    · exact (squeezeAny_spec d len .squeezeKey).2.2
    · exact (squeezeCont_spec d len).2.1
  | encrypt len cont | decrypt len cont =>
    obtain ⟨-, rfl⟩ := TxnResult.done.inj h
    rw [length_crypt, hI]; rfl
  | ctxSave =>
    obtain ⟨-, rfl⟩ := TxnResult.done.inj h
    simp [contextImage, outLen, contextImageLen]
  | ctxRestore =>
    simp only [transaction, txnCtxRestore] at h
    split at h
    · cases h
    · obtain ⟨-, rfl⟩ := TxnResult.done.inj h; rfl
  | initHash | initKeyed _ _ _ | absorb _ _ | ratchet | permute =>
    obtain ⟨-, rfl⟩ := TxnResult.done.inj h; rfl

end Sys2Proof.Machine

/-! PROOFS. A whole command as the host sees it: the states between its accesses, and each access and
engine step as an equation between them (R57 to R66). -/

namespace Sys2Proof.Machine

/-! ### Runs -/

/-- `k` steps lead from `s` to `t`. -/
def State.Runs (s : State) (k : Nat) (t : State) : Prop :=
  Host.Core.run Sys2Proof.core k s = .next t

theorem State.Runs.trans {s t u : State} {m n : Nat} (h : s.Runs m t) (h' : t.Runs n u) :
    s.Runs (m + n) u := by
  unfold State.Runs at *
  induction m generalizing s with
  | zero => cases h; rwa [Nat.zero_add]
  | succ m ih =>
    rw [Nat.succ_add]
    simp only [Host.Core.run] at h ⊢
    cases hs : Sys2Proof.core.step s with
    | next s' => rw [hs] at h; exact ih h
    | fault r | refused r => rw [hs] at h; cases h

theorem State.Runs.of_step {s t : State} (h : step s = .next t) : s.Runs 1 t := by
  simp only [State.Runs, Host.Core.run, show Sys2Proof.core.step s = .next t from h]

/-- Bytes served one after another, `k` steps each: `A X Y es` is the state when the bytes of `X` are
served, those of `Y` are not, and the events `es` are to come. -/
theorem runs_flatMap {A : List Byte → List Byte → List HostEvent → State} {f : Byte → List HostEvent}
    {k : Nat} (Z : List Byte) (es : List HostEvent)
    (h : ∀ X x Y es, X ++ x :: Y = Z → (A X (x :: Y) (f x ++ es)).Runs k (A (X ++ [x]) Y es)) :
    (A [] Z (Z.flatMap f ++ es)).Runs (k * Z.length) (A Z [] es) := by
  suffices ∀ X Y, X ++ Y = Z → (A X Y (Y.flatMap f ++ es)).Runs (k * Y.length) (A Z [] es) from
    this [] Z rfl
  intro X Y hZ
  induction Y generalizing X with
  | nil => rw [← hZ, List.append_nil]; rfl
  | cons y Y ih =>
    rw [List.length_cons, Nat.mul_succ, Nat.add_comm, List.flatMap_cons, List.append_assoc]
    exact (h X y Y _ hZ).trans (ih (X ++ [y]) (by simpa using hZ))

/-! ### The states of a command in progress -/

/-- `s` with `i` accepted, the input `X` received and `held` bytes in the input buffer (R27, R57, R58). -/
def State.receiving (s : State) (i : Instr) (held : Nat) (X : List Byte) : State :=
  { s with ctl := .run,
           run := { cur := encode i, inNeed := inLen i, inBuf := X, executed := false, outBuf := [],
                    outLeft := outLen i, dinHeld := held, outRest := [] } }

/-- `s` with `i` executed to the session `d` and its output unread: the bytes of `B` stand in the output
buffer, and those of `R` follow them (R63, R64). -/
def State.sending (s : State) (i : Instr) (held : Nat) (X : List Byte) (d : Session)
    (B R : List Byte) : State :=
  { s with session := d, ctl := .run,
           run := { cur := encode i, inNeed := inLen i, inBuf := X, executed := true, outBuf := B,
                    outLeft := B.length + R.length, dinHeld := held, outRest := R } }

/-- The same, and the command has completed if no byte is left to be read (R65). -/
def State.delivering (s : State) (i : Instr) (held : Nat) (X : List Byte) (d : Session)
    (B R : List Byte) : State :=
  (s.sending i held X d B R).completeIfDone

/-- `s` once the input `X` is received: the command has executed if that was all of it (R64). -/
def State.fed (s : State) (i : Instr) (held : Nat) (X : List Byte) : State :=
  (s.receiving i held X).execute (transaction i)

/-- `s` with the output buffer full, as far as the bytes of `Y` left to be read fill it (R63). -/
def State.filled (s : State) (i : Instr) (held : Nat) (X : List Byte) (d : Session) (Y : List Byte) :
    State :=
  s.delivering i held X d (Y.take s.params.doutDepth) (Y.drop s.params.doutDepth)

/-- `s` with the events `es` to come. -/
def State.before (s : State) (es : List HostEvent) : State := { s with pending := es }

/-- `s` with the bytes of `X` read from DOUT. -/
def State.answered (s : State) (X : List Byte) : State :=
  { s with replies := s.replies ++ X.map zext32 }

variable {s : State} {i : Instr} {held : Nat} {X B R : List Byte} {d : Session} {es : List HostEvent}

theorem answered_nil : s.answered [] = s := by
  simp [State.answered]

theorem answered_answered (Y : List Byte) : (s.answered X).answered Y = s.answered (X ++ Y) := by
  simp [State.answered]

theorem delivering_nil :
    s.delivering i held X d [] [] = { s with session := d, ctl := .idle, run := RunRecord.empty } := rfl

/-- While a byte is left, the command has not completed (R65). -/
theorem delivering_of_ne (h : B ≠ [] ∨ R ≠ []) :
    s.delivering i held X d B R = s.sending i held X d B R := by
  refine completeIfDone_of_left ?_
  cases B <;> cases R <;> simp_all [State.sending]

theorem filled_of_le {Y : List Byte} (h : Y.length ≤ s.params.doutDepth) :
    s.filled i held X d Y = s.delivering i held X d Y [] := by
  rw [State.filled, List.take_of_length_le h, List.drop_of_length_le h]

theorem filled_cons {k : Nat} (h : s.params.doutDepth = k + 1) (b : Byte) (Y : List Byte) :
    s.filled i held X d (b :: Y) = s.delivering i held X d (b :: Y.take k) (Y.drop k) := by
  rw [State.filled, h, List.take_succ_cons, List.drop_succ_cons]

theorem fed_of_incomplete (h : X.length ≠ inLen i) : s.fed i held X = s.receiving i held X :=
  execute_of_incomplete h

/-- The last byte executes the command: all of its output is to be read (R64). -/
theorem fed_of_complete {O : List Byte} (hX : X.length = inLen i)
    (ht : transaction i s.session X = .done d O) : s.fed i held X = s.filled i held X d O := by
  have hO : O.length = outLen i := length_output hX ht
  have hlen : (O.take s.params.doutDepth).length + (O.drop s.params.doutDepth).length = outLen i := by
    rw [← List.length_append, List.take_append_drop, hO]
  simp only [State.fed, State.filled, State.delivering, State.sending, State.receiving, State.execute,
    State.inputComplete, hX, ht, hlen, and_self, if_true]

/-! ### The accesses -/

@[simp] theorem extract_zext32 (b : Byte) : (zext32 b).extractLsb' 0 8 = b := by
  apply BitVec.eq_of_getLsbD_eq
  intro j hj
  simp [zext32, hj, show j < 32 by omega]

theorem step_of_writeCmd {w : Word} (hp : s.pending = writeCmd s.params w :: es) :
    step s = cmdWrite w (s.before es) :=
  step_of_write hp (windowOffset_base s.params cmdOffset (by decide))

theorem step_of_writeDin {b : Byte} (hp : s.pending = writeDin s.params b :: es) :
    step s = dinWrite (zext32 b) (s.before es) :=
  step_of_write hp (windowOffset_base s.params dinOffset (by decide))

theorem step_of_readDout (hp : s.pending = readDout s.params :: es) :
    step s = .next (doutRead (s.before es)) :=
  step_of_read hp (windowOffset_base s.params doutOffset (by decide))

/-- An admitted command word written in IDLE: the command is accepted, and executes at once if it takes
no input and the engine has no latency (R57, R64). -/
theorem step_writeCmd (hc : s.ctl = .idle) (hw : i.WellFormed)
    (ha : admitted s.params.ctxPort s.session.mode i = true) :
    step (s.before (writeCmd s.params (encode i) :: es)) = .next
      (if s.params.permLatency = 0 then (s.before es).fed i 0 [] else (s.before es).receiving i 0 []) := by
  have hd := decode_encode s.params.ctxPort i hw (ctxPort_of_admitted ha)
  have hv : violation s.params.ctxPort s.session.mode i = none := (admitted_iff _ _ _).1 ha
  refine (step_of_writeCmd (s := s.before _) rfl).trans
    ((cmdWrite_of_command (s := s.before es) hc hd).trans ?_)
  split
  · next hl => exact exec_of_accept (s := s.before es) hc hv hl
  · next hl => exact exec_of_accept_later (s := s.before es) hc hv hl

/-- A byte written to DIN while the command expects one and the buffer has room: it is received, and
the command executes if it was the last and the engine has no latency (R58, R62, R64). -/
theorem step_writeDin (b : Byte) (hd : decode s.params.ctxPort (encode i) = .command i)
    (hf : held < s.params.dinDepth) (hX : X.length < inLen i) :
    step ((s.before (writeDin s.params b :: es)).receiving i held X) = .next
      (if s.params.permLatency = 0 then (s.before es).fed i (held + 1) (X ++ [b])
       else (s.before es).receiving i (held + 1) (X ++ [b])) := by
  let t := (s.before es).receiving i held X
  have hfree : t.dinFree = true := by
    simp [t, State.dinFree, State.busy, State.receiving, State.before, hf, hX]
  have htake : t.takeIn ((zext32 b).extractLsb' 0 8) =
      (s.before es).receiving i (held + 1) (X ++ [b]) := by
    rw [extract_zext32]; rfl
  refine (step_of_writeDin (s := (s.before _).receiving i held X) rfl).trans ?_
  change dinWrite (zext32 b) t = _
  split
  · next hl =>
    by_cases hlast : X.length + 1 = inLen i
    · rw [dinWrite_of_last rfl hfree hlast hl hd, htake, exec_of_run i rfl]; rfl
    · rw [dinWrite_of_take rfl hfree fun h => absurd h hlast, htake, fed_of_incomplete (by simpa)]
  · next hl => rw [dinWrite_of_take rfl hfree fun _ => hl, htake]

/-- A read of DOUT while a byte stands in the output buffer returns it (R59). -/
theorem step_readDout (b : Byte) :
    step ((s.before (readDout s.params :: es)).delivering i held X d (b :: B) R) = .next
      (((s.before es).answered [b]).delivering i held X d B R) := by
  have havail : ((s.before es).sending i held X d (b :: B) R).doutAvail = true := by
    simp [State.sending, State.doutAvail, State.busy]
  have hleft : (b :: B).length + R.length - 1 = B.length + R.length := by
    rw [List.length_cons]; omega
  rw [delivering_of_ne (.inl (List.cons_ne_nil b B))]
  refine (step_of_readDout (s := (s.before _).sending i held X d _ R) rfl).trans (congrArg _ ?_)
  refine (doutRead_of_byte (s := (s.before es).sending i held X d _ R) rfl havail rfl).trans ?_
  simp only [State.sending, hleft]
  cases B <;> cases R <;> rfl

/-! ### The engine's steps -/

/-- An engine step while input is awaited or due to be executed: the input buffer is emptied, and a
command that has all its input executes (R62, R64). -/
theorem step_engine_receiving (hd : decode s.params.ctxPort (encode i) = .command i) :
    step ((s.before (.engine :: es)).receiving i held X) = .next ((s.before es).fed i 0 X) := by
  refine (step_of_engine (rest := es) rfl).trans ?_
  by_cases hX : X.length = inLen i
  · exact (engineStep_of_due rfl hX rfl hd).trans (exec_of_run i rfl)
  · rw [fed_of_incomplete hX]
    exact (engineStep_of_move rfl fun h => hX h.1).trans (congrArg Host.Outcome.next
      (by simp [State.refillOut, State.drainIn, State.receiving, State.before]))

/-- The engine fills the output buffer from the bytes that follow it (R63). -/
theorem refillOut_sending (hB : B.length ≤ s.params.doutDepth) :
    (s.sending i held X d B R).drainIn.refillOut =
      s.sending i 0 X d ((B ++ R).take s.params.doutDepth) ((B ++ R).drop s.params.doutDepth) := by
  have htake : (B ++ R).take s.params.doutDepth = B ++ R.take (s.params.doutDepth - B.length) := by
    rw [List.take_append, List.take_of_length_le hB]
  have hdrop : (B ++ R).drop s.params.doutDepth = R.drop (s.params.doutDepth - B.length) := by
    rw [List.drop_append, List.drop_of_length_le hB, List.nil_append]
  have hleft : B.length + R.length =
      ((B ++ R).take s.params.doutDepth).length + ((B ++ R).drop s.params.doutDepth).length := by
    rw [← List.length_append, ← List.length_append, List.take_append_drop]
  rw [State.sending, State.sending, ← hleft, htake, hdrop]
  rfl

/-- An engine step while output is delivered fills the output buffer (R63). -/
theorem step_engine_delivering {Y : List Byte} (hB : B.length ≤ s.params.doutDepth)
    (hY : B ++ R = Y) :
    step ((s.before (.engine :: es)).delivering i held X d B R) = .next
      ((s.before es).filled i 0 X d Y) := by
  subst hY
  by_cases h : B ++ R = []
  · obtain ⟨rfl, rfl⟩ := List.append_eq_nil_iff.1 h
    rw [delivering_nil, step_of_engine rfl, engineStep_of_not_run (by simp)]
    simp [State.filled, delivering_nil, State.before]
  · have hne : B ≠ [] ∨ R ≠ [] := by
      rwa [← not_and_or, ← List.append_eq_nil_iff]
    have hne' : (B ++ R).take s.params.doutDepth ≠ [] ∨ (B ++ R).drop s.params.doutDepth ≠ [] := by
      rwa [← not_and_or, ← List.append_eq_nil_iff, List.take_append_drop]
    have hmove : engineStep ((s.before es).sending i held X d B R) =
        .next ((s.before es).sending i held X d B R).drainIn.refillOut :=
      engineStep_of_move rfl (by simp [State.sending])
    rw [delivering_of_ne hne, State.filled]
    refine (step_of_engine (s := (s.before _).sending i held X d B R) rfl).trans (hmove.trans ?_)
    exact congrArg _ ((refillOut_sending (s := s.before es) hB).trans (delivering_of_ne hne').symm)

/-- An engine step after the input `X`, whether or not it has completed the command's input (R62 to
R64). -/
theorem step_engine_fed {O : List Byte} (hd : decode s.params.ctxPort (encode i) = .command i)
    (ht : X.length = inLen i → transaction i s.session X = .done d O) :
    step ((s.before (.engine :: es)).fed i held X) = .next ((s.before es).fed i 0 X) := by
  by_cases hX : X.length = inLen i
  · rw [fed_of_complete (s := s.before es) hX (ht hX),
      fed_of_complete (s := s.before (.engine :: es)) hX (ht hX)]
    exact step_engine_delivering (List.length_take_le _ _) (List.take_append_drop _ _)
  · rw [fed_of_incomplete hX]
    exact step_engine_receiving hd

end Sys2Proof.Machine

/-! PROOFS. The two refinements: a host that serves a command reads exactly its transaction's output
(R66, R17). -/

namespace Sys2Proof.Machine

variable {s : State} {i : Instr} {held : Nat} {I X Y O : List Byte} {d : Session}
  {es : List HostEvent}

/-- `s` is IDLE and admits `i`, whose transaction with the input `I` gives the session `d` and the output
`O` (R17, R57). -/
structure State.Offers (s : State) (i : Instr) (I : List Byte) (d : Session) (O : List Byte) : Prop where
  inv : s.Inv
  idle : s.ctl = .idle
  wellFormed : i.WellFormed
  admits : admitted s.params.ctxPort s.session.mode i = true
  input : I.length = inLen i
  txn : transaction i s.session I = .done d O

theorem State.Offers.decodes (h : s.Offers i I d O) :
    decode s.params.ctxPort (encode i) = .command i :=
  decode_encode _ i h.wellFormed (ctxPort_of_admitted h.admits)

theorem State.Offers.output (h : s.Offers i I d O) : O.length = outLen i := length_output h.input h.txn

/-- A part of the input that a byte follows is not the whole input. -/
theorem State.Offers.part_lt {b : Byte} (h : s.Offers i I d O) (hX : X ++ b :: Y = I) :
    X.length < inLen i := by
  rw [← h.input, ← hX, List.length_append, List.length_cons]; omega

/-- With all input received and all output read, `s` is left with the session `d` (R65). -/
theorem State.Offers.served (h : s.Offers i I d O) :
    ((s.before es).answered O).filled i held I d [] =
      { s with session := d, pending := es, replies := s.replies ++ O.map zext32 } := by
  obtain ⟨-, hrun, -, -, -⟩ := h.inv
  have hempty : s.run = RunRecord.empty := hrun (by simp [h.idle])
  simp [State.filled, delivering_nil, State.before, State.answered, hempty, h.idle]

/-! ### The events of a served command -/

theorem serveRef_eq (p : Params) (hO : O.length = outLen i) :
    serveRef p i I (outLen i) =
      writeCmd p (encode i) ::
        (I.flatMap (fun b => [writeDin p b]) ++ O.flatMap fun _ => [readDout p]) := by
  rw [serveRef, ← hO, List.map_eq_flatMap, ← List.map_const', List.map_eq_flatMap]

theorem servePaced_eq (p : Params) (hO : O.length = outLen i) :
    servePaced p i I (outLen i) =
      writeCmd p (encode i) :: .engine ::
        (I.flatMap (fun b => [writeDin p b, .engine]) ++ O.flatMap fun _ => [readDout p, .engine]) := by
  rw [servePaced, ← hO, ← List.map_const', List.flatMap_def (l := O)]
  rfl

/-! ### On REF -/

/-- Without latency and with room for every byte, the input is received write by write, and the last
byte executes the command (R58, R64). -/
theorem State.Offers.runs_writeDin (h : s.Offers i I d O) (hl : s.params.permLatency = 0)
    (hdin : inLen i ≤ s.params.dinDepth) :
    ((s.before (I.flatMap (fun b => [writeDin s.params b]) ++ es)).fed i 0 []).Runs (1 * I.length)
      ((s.before es).filled i I.length I d O) := by
  rw [← fed_of_complete (s := s.before es) h.input h.txn]
  refine runs_flatMap (A := fun X _ es => (s.before es).fed i X.length X) I es
    fun X b Y es hX => .of_step ?_
  have hlt := h.part_lt hX
  rw [fed_of_incomplete hlt.ne, List.length_append, List.length_singleton]
  have hstep := step_writeDin (es := es) b h.decodes (hlt.trans_le hdin) hlt
  rwa [if_pos hl] at hstep

/-- With all output in the buffer, it is read byte by byte (R59). -/
theorem State.Offers.runs_readDout (h : s.Offers i I d O) (hdout : outLen i ≤ s.params.doutDepth) :
    ((s.before (O.flatMap (fun _ => [readDout s.params]) ++ es)).filled i held I d O).Runs
      (1 * O.length) (((s.before es).answered O).filled i held I d []) := by
  rw [← answered_nil (s := s.before (_ ++ es))]
  refine runs_flatMap (A := fun X Y es => ((s.before es).answered X).filled i held I d Y) O es
    fun X b Y es hX => .of_step ?_
  have hlen : Y.length + 1 ≤ s.params.doutDepth := by
    rw [← h.output, ← hX, List.length_append, List.length_cons] at hdout; omega
  rw [filled_of_le (Y := b :: Y) (by exact hlen), filled_of_le (by exact Nat.le_of_succ_le hlen),
    ← answered_answered [b]]
  exact step_readDout (s := s.answered X) b

/-- The whole service of a command on REF. -/
theorem State.Offers.runs_serveRef (h : s.Offers i I d O) (hl : s.params.permLatency = 0)
    (hdin : inLen i ≤ s.params.dinDepth) (hdout : outLen i ≤ s.params.doutDepth) :
    (s.before (serveRef s.params i I (outLen i) ++ es)).Runs (1 + 1 * I.length + 1 * O.length)
      { s with session := d, pending := es, replies := s.replies ++ O.map zext32 } := by
  have hcmd := step_writeCmd (es := I.flatMap (fun b => [writeDin s.params b]) ++
    (O.flatMap (fun _ => [readDout s.params]) ++ es)) h.idle h.wellFormed h.admits
  rw [if_pos hl] at hcmd
  rw [serveRef_eq s.params h.output, List.cons_append, List.append_assoc, ← h.served]
  exact ((State.Runs.of_step hcmd).trans (h.runs_writeDin hl hdin)).trans (h.runs_readDout hdout)

/-! ### With an engine step after every access -/

/-- The engine step after an access that has left the command with the input `X`: with latency, it is this
step that executes a command whose input is complete (R64; log 4). -/
theorem State.Offers.step_engine (h : s.Offers i I d O) (hX : X <+: I) :
    step (if s.params.permLatency = 0 then (s.before (.engine :: es)).fed i held X
          else (s.before (.engine :: es)).receiving i held X) =
      .next ((s.before es).fed i 0 X) := by
  split
  · refine step_engine_fed (d := d) (O := O) h.decodes fun hlen => ?_
    rw [hX.eq_of_length (hlen.trans h.input.symm)]
    exact h.txn
  · exact step_engine_receiving h.decodes

/-- The input is received and the command executed, whatever the depth and the latency (R58, R62, R64). -/
theorem State.Offers.runs_writeDin_engine (h : s.Offers i I d O) :
    ((s.before (I.flatMap (fun b => [writeDin s.params b, .engine]) ++ es)).fed i 0 []).Runs
      (2 * I.length) ((s.before es).filled i 0 I d O) := by
  obtain ⟨⟨-, hdin, -⟩, -⟩ := h.inv
  rw [← fed_of_complete (s := s.before es) h.input h.txn]
  refine runs_flatMap (A := fun X _ es => (s.before es).fed i 0 X) I es fun X b Y es hX => ?_
  have hlt := h.part_lt hX
  have hprefix : X ++ [b] <+: I := ⟨Y, by simpa using hX⟩
  rw [fed_of_incomplete hlt.ne]
  exact (State.Runs.of_step (step_writeDin b h.decodes hdin hlt)).trans
    (.of_step (h.step_engine hprefix))

/-- The output is read, whatever the depth: each engine step fills the buffer again (R59, R63). -/
theorem State.Offers.runs_readDout_engine (h : s.Offers i I d O) :
    ((s.before (O.flatMap (fun _ => [readDout s.params, .engine]) ++ es)).filled i 0 I d O).Runs
      (2 * O.length) (((s.before es).answered O).filled i 0 I d []) := by
  obtain ⟨⟨-, -, hdout⟩, -⟩ := h.inv
  obtain ⟨k, hk⟩ : ∃ k, s.params.doutDepth = k + 1 := ⟨_, (Nat.sub_add_cancel hdout).symm⟩
  rw [← answered_nil (s := s.before (_ ++ es))]
  refine runs_flatMap (A := fun X Y es => ((s.before es).answered X).filled i 0 I d Y) O es
    fun X b Y es _ => ?_
  have hroom : (Y.take k).length ≤ s.params.doutDepth := by
    rw [List.length_take, hk]; omega
  rw [filled_cons (by exact hk), ← answered_answered [b]]
  exact (State.Runs.of_step (step_readDout (s := s.answered X) b)).trans
    (.of_step (step_engine_delivering (s := (s.answered X).answered [b]) hroom
      (List.take_append_drop k Y)))

/-- The whole service of a command with an engine step after every access. -/
theorem State.Offers.runs_servePaced (h : s.Offers i I d O) :
    (s.before (servePaced s.params i I (outLen i) ++ es)).Runs (1 + 1 + 2 * I.length + 2 * O.length)
      { s with session := d, pending := es, replies := s.replies ++ O.map zext32 } := by
  have hcmd := step_writeCmd (es := .engine :: (I.flatMap (fun b => [writeDin s.params b, .engine]) ++
    (O.flatMap (fun _ => [readDout s.params, .engine]) ++ es))) h.idle h.wellFormed h.admits
  rw [servePaced_eq s.params h.output, List.cons_append, List.cons_append, List.append_assoc, ← h.served]
  exact (((State.Runs.of_step hcmd).trans (.of_step (h.step_engine List.nil_prefix))).trans
    h.runs_writeDin_engine).trans h.runs_readDout_engine

/-! ### The obligations -/

/-- Settles O59: the service is the CMD write, an induction over the input bytes and one over the output
bytes. -/
theorem refServiceGivesTheTransaction : Obligations.RefServiceGivesTheTransaction := by
  intro s i I d O rest hinv hidle hl hdin hdout hw ha hI ht hp
  have h : s.Offers i I d O := ⟨hinv, hidle, hw, ha, hI, ht⟩
  have hrun := h.runs_serveRef (es := rest) hl hdin hdout
  rw [h.input, h.output, Nat.one_mul, Nat.one_mul, ← hp] at hrun
  exact hrun

/-- Settles O60: as O59, with the engine step after each access emptying the input buffer, executing a
command that waits out a latency, and filling the output buffer (logs 4 to 6). -/
theorem pacedServiceGivesTheTransaction : Obligations.PacedServiceGivesTheTransaction := by
  intro s i I d O rest hinv hidle hw ha hI ht hp
  have h : s.Offers i I d O := ⟨hinv, hidle, hw, ha, hI, ht⟩
  have hrun := h.runs_servePaced (es := rest)
  rw [h.input, h.output, ← hp] at hrun
  exact hrun

end Sys2Proof.Machine

/-! PROOFS. A legal word is the word of its command. -/

namespace Sys2Proof

/-- A bit that a format reserves is 0 in a legal word (R88). -/
theorem reserved_bit {w : Word} {start len j : Nat} (h : w.extractLsb' start len = 0)
    (h1 : start ≤ j) (h2 : j < start + len) : w.getLsbD j = false := by
  have := congrArg (fun v => v.getLsbD (j - start)) h
  simpa [show j - start < len by omega, show start + (j - start) = j by omega] using this

/-- A bit of a field of a word, written into a word of its own. -/
theorem field_bit (w : Word) (start len : Nat) {j : Nat} (hj : j < 32) :
    (BitVec.ofNat 32 (w.extractLsb' start len).toNat).getLsbD j =
      (decide (j < len) && w.getLsbD (start + j)) := by
  simp [-BitVec.extractLsb'_toNat, hj]

/-- A format N word is made of its opcode byte (R82). -/
theorem encodeN_opcOf {w : Word} (h : w.extractLsb' 8 24 = 0) : encodeN (opcOf w) = w := by
  apply BitVec.eq_of_getLsbD_eq
  intro j hj
  have h8 := reserved_bit (j := j) h
  simp only [encodeN, opcOf, BitVec.getLsbD_setWidth, BitVec.getLsbD_extractLsb', hj, Nat.zero_add]
  grind

/-- A format L word is made of its fields (R83). -/
theorem encodeL_fields {w : Word} (h : w.extractLsb' 9 7 = 0) :
    encodeL (opcOf w) (lenOf w) (contOf w) = w := by
  apply BitVec.eq_of_getLsbD_eq
  intro j hj
  have h9 := reserved_bit (j := j) h
  have hl := field_bit w 16 16 (show j - 16 < 32 by omega)
  simp only [encodeL, opcOf, lenOf, contOf, BitVec.getLsbD_or, BitVec.getLsbD_shiftLeft, hl,
    BitVec.getLsbD_setWidth, BitVec.getLsbD_extractLsb', BitVec.getLsbD_ofBool, hj, Nat.zero_add]
  grind

/-- A format K word is made of its fields (R84). -/
theorem encodeK_fields {w : Word} (h : w.extractLsb' 14 2 = 0) (h' : w.extractLsb' 22 2 = 0) :
    encodeK (opcOf w) (klenOf w) (idlenOf w) (clenOf w) = w := by
  apply BitVec.eq_of_getLsbD_eq
  intro j hj
  have h14 := reserved_bit (j := j) h
  have h22 := reserved_bit (j := j) h'
  have hk := field_bit w 8 6 (show j - 8 < 32 by omega)
  have hd := field_bit w 16 6 (show j - 16 < 32 by omega)
  have hc := field_bit w 24 8 (show j - 24 < 32 by omega)
  simp only [encodeK, opcOf, klenOf, idlenOf, clenOf, BitVec.getLsbD_or, BitVec.getLsbD_shiftLeft,
    hk, hd, hc, BitVec.getLsbD_setWidth, BitVec.getLsbD_extractLsb', hj, Nat.zero_add]
  grind

/-- A legal word is the word of the command it decodes to (R90, R93). -/
theorem encode_of_decode {port : CtxPort} {w : Word} {i : Instr} (h : decode port w = .command i) :
    encode i = w := by
  obtain ⟨hopc, ⟨hN, hi⟩ | ⟨hN, -, hi⟩ | ⟨hL, hi⟩ | ⟨hK, hK', rfl⟩⟩ := decode_cases h
  · rw [← encodeN_opcOf hN, hopc]
    rcases hi with rfl | rfl <;> rfl
  · rw [← encodeN_opcOf hN, hopc]
    rcases hi with rfl | rfl | rfl <;> rfl
  · have hw := encodeL_fields hL
    rw [hopc] at hw
    rcases hi with rfl | rfl | rfl | rfl | rfl <;> exact hw
  · have hw := encodeK_fields hK hK'
    rw [hopc] at hw
    exact hw

end Sys2Proof

/-! PROOFS. MODE and PHASE after each command's transaction (R40). -/

namespace Sys2Proof.Machine

/-- SQUEEZE and SQUEEZE_KEY keep MODE and end in Up, but for a continuation of no bytes, which changes
nothing (R40, R146, R147). -/
theorem squeeze_mode_phase (d : Session) (len : Nat) (cont : Bool) (f : Flag) :
    let d' := (if cont then squeezeCont d len else squeezeAny d len f).1
    d'.mode = d.mode ∧ (if cont = true ∧ len = 0 then d' = d else d'.phase = .up) := by
  cases cont with
  | false =>
    obtain ⟨hm, hp, -⟩ := squeezeAny_spec d len f
    simp [hm, hp]
  | true =>
    obtain ⟨hm, -, hp⟩ := squeezeCont_spec d len
    by_cases h : len = 0
    · simp [h]
    · simp [hm, h, hp (.inl h)]

/-- Settles O58: the last Down or Up of a transaction decides PHASE, and only INIT_HASH, INIT_KEYED and
CTX_RESTORE write MODE. -/
theorem modeAndPhaseAfterEachCommand : Obligations.ModeAndPhaseAfterEachCommand := by
  intro i d d' I O h
  cases i with
  | initHash => obtain ⟨rfl, -⟩ := TxnResult.done.inj h; exact ⟨rfl, rfl⟩
  | initKeyed klen idlen clen =>
    obtain ⟨rfl, -⟩ := TxnResult.done.inj h
    by_cases hc : 0 < clen <;> simp [hc]
  | absorb len cont =>
    obtain ⟨rfl, -⟩ := TxnResult.done.inj h
    exact ⟨absorbAny_mode .., absorbAny_phase ..⟩
  | squeeze len cont | squeezeKey len cont =>
    obtain ⟨rfl, -⟩ := TxnResult.done.inj h
    exact squeeze_mode_phase d len cont _
  | encrypt len cont | decrypt len cont =>
    obtain ⟨rfl, -⟩ := TxnResult.done.inj h
    exact ⟨crypt_mode .., crypt_phase ..⟩
  | ratchet =>
    obtain ⟨rfl, -⟩ := TxnResult.done.inj h
    exact ⟨by rw [absorbAny_mode, (squeezeAny_spec d _ _).1], absorbAny_phase ..⟩
  | permute => obtain ⟨rfl, -⟩ := TxnResult.done.inj h; exact ⟨rfl, rfl⟩
  | ctxSave => exact (TxnResult.done.inj h).1.symm
  | ctxRestore =>
    simp only [transaction, txnCtxRestore] at h
    split at h
    · cases h
    · obtain ⟨rfl, -⟩ := TxnResult.done.inj h
      exact ⟨rfl, rfl⟩

/-- A command with output keeps MODE (R40, R92). -/
theorem mode_of_outLen_ne_zero {i : Instr} {d d' : Session} {I O : List Byte} (ho : outLen i ≠ 0)
    (h : transaction i d I = .done d' O) : d'.mode = d.mode := by
  have hmp := modeAndPhaseAfterEachCommand i d d' I O h
  cases i with
  | squeeze | squeezeKey | encrypt | decrypt => exact hmp.1
  | ctxSave => exact congrArg Session.mode hmp
  | initHash | initKeyed | absorb | ratchet | permute | ctxRestore => exact absurd rfl ho

end Sys2Proof.Machine

/-! PROOFS. The invariant: what each operation of the controller keeps, and that every step keeps it. -/

namespace Sys2Proof.Machine

variable {s t : State} {i : Instr}

/-! ### DIN_FREE and DOUT_AVAIL (R32, R62, R63) -/

theorem dinFree_iff : s.dinFree = true ↔
    s.ctl = .run ∧ s.run.inBuf.length < s.run.inNeed ∧ s.run.dinHeld < s.params.dinDepth := by
  simp [State.dinFree, State.busy, and_assoc]

theorem doutAvail_iff : s.doutAvail = true ↔
    s.ctl = .run ∧ s.run.executed = true ∧ 0 < s.run.outLeft ∧ s.run.outBuf ≠ [] := by
  simp [State.doutAvail, State.busy, and_assoc]

/-! ### The invariant, controller state by controller state -/

/-- What the invariant says outside FAULT beside the RUN record (R9, R28). -/
def State.Clean (s : State) : Prop := s.params.Legal ∧ s.cause = .none ∧ s.faultInfo = 0

/-- The command `i` is accepted and has not executed (R27, R57, R58). -/
structure State.Awaits (s : State) (i : Instr) : Prop where
  clean : s.Clean
  running : s.ctl = .run
  decodes : decode s.params.ctxPort s.run.cur = .command i
  admits : admitted s.params.ctxPort s.session.mode i = true
  need : s.run.inNeed = inLen i
  notExecuted : s.run.executed = false
  received : s.run.inBuf.length ≤ s.run.inNeed
  held : s.run.dinHeld ≤ s.run.inBuf.length
  left : s.run.outLeft = outLen i
  outBuf : s.run.outBuf = []
  outRest : s.run.outRest = []

/-- The command `i` has executed, and OUT_LEFT bytes of its output are left, perhaps none (R27, R64). -/
structure State.Delivers (s : State) (i : Instr) : Prop where
  clean : s.Clean
  running : s.ctl = .run
  decodes : decode s.params.ctxPort s.run.cur = .command i
  admits : admitted s.params.ctxPort s.session.mode i = true
  need : s.run.inNeed = inLen i
  hasExecuted : s.run.executed = true
  received : s.run.inBuf.length = s.run.inNeed
  left : s.run.outBuf.length + s.run.outRest.length = s.run.outLeft
  left_le : s.run.outLeft ≤ outLen i
  fits : s.run.outBuf.length ≤ s.params.doutDepth

/-- Outside FAULT no cause is set (R28). -/
theorem clean_of_inv (h : s.Inv) (hc : s.ctl ≠ .fault) : s.Clean := by
  obtain ⟨hp, -, -, hcause, -⟩ := h
  exact ⟨hp, hcause hc⟩

theorem inv_of_idle (h : s.Clean) (hc : s.ctl = .idle) (hr : s.run = RunRecord.empty) : s.Inv :=
  ⟨h.1, fun _ => hr, fun hc' => by simp [hc] at hc', fun _ => h.2, fun hc' => by simp [hc] at hc'⟩

theorem inv_of_run (h : s.Clean) (hc : s.ctl = .run) (hr : s.recordOk = true) : s.Inv :=
  ⟨h.1, fun hc' => absurd hc hc', fun _ => hr, fun _ => h.2, fun hc' => by simp [hc] at hc'⟩

/-- FAULT ENTRY meets the invariant (R250). -/
theorem inv_raise (h : s.params.Legal) {c : Cause} (hc : c ≠ .none) (info : Word) :
    (s.raise c info).Inv :=
  ⟨h, fun _ => rfl, fun h' => by simp at h', fun h' => absurd rfl h', fun _ => hc⟩

/-- In RUN a command awaits its input or its latency, or delivers its output (R27). -/
theorem awaits_or_delivers (h : s.Inv) (hc : s.ctl = .run) :
    ∃ i, (s.Awaits i ∧ (s.run.inBuf.length = s.run.inNeed → 0 < s.params.permLatency)) ∨
      (s.Delivers i ∧ 0 < s.run.outLeft) := by
  have hclean : s.Clean := clean_of_inv h (by simp [hc])
  obtain ⟨-, -, hrun, -, -⟩ := h
  obtain ⟨i, hd⟩ := command_of_recordOk (hrun hc)
  obtain ⟨ha, hn, hdone, hwait⟩ := (recordOk_iff hd).1 (hrun hc)
  refine ⟨i, ?_⟩
  cases he : s.run.executed with
  | false =>
    obtain ⟨hin, hlat, hheld, hleft, hbuf, hrest⟩ := hwait he
    exact .inl ⟨⟨hclean, hc, hd, ha, hn, he, hin, hheld, hleft, hbuf, hrest⟩, hlat⟩
  | true =>
    obtain ⟨hin, hleft, hpos, hle, hfits⟩ := hdone he
    exact .inr ⟨⟨hclean, hc, hd, ha, hn, he, hin, hleft, hle, hfits⟩, hpos⟩

/-- A command that waits meets the invariant, unless it is due to execute at once (R64). -/
theorem State.Awaits.inv (h : s.Awaits i)
    (hl : s.run.inBuf.length = s.run.inNeed → 0 < s.params.permLatency) : s.Inv :=
  inv_of_run h.clean h.running <| (recordOk_iff h.decodes).2
    ⟨h.admits, h.need, fun he => by simp [h.notExecuted] at he,
      fun _ => ⟨h.received, hl, h.held, h.left, h.outBuf, h.outRest⟩⟩

/-- A command that delivers, completed if no output is left, meets the invariant (R65). -/
theorem State.Delivers.inv_completeIfDone (h : s.Delivers i) : s.completeIfDone.Inv := by
  by_cases h0 : s.run.outLeft = 0
  · rw [completeIfDone_of_done h.running h.hasExecuted h0]
    exact inv_of_idle h.clean rfl rfl
  · rw [completeIfDone_of_left h0]
    exact inv_of_run h.clean h.running <| (recordOk_iff h.decodes).2
      ⟨h.admits, h.need, fun _ => ⟨h.received, h.left, Nat.pos_of_ne_zero h0, h.left_le, h.fits⟩,
        fun he => by simp [h.hasExecuted] at he⟩

/-! ### What the operations keep -/

/-- The next byte of the input (R58). -/
theorem State.Awaits.takeIn (h : s.Awaits i) (hf : s.run.inBuf.length < s.run.inNeed) (b : Byte) :
    (s.takeIn b).Awaits i :=
  { h with
    received := by simpa using hf
    held := by simpa using h.held }

/-- The engine takes the bytes out of the input buffer (R62). -/
theorem State.Awaits.drainIn (h : s.Awaits i) : s.drainIn.Awaits i :=
  { h with held := Nat.zero_le _ }

/-- A command that has not executed has no output to move (R63). -/
theorem State.Awaits.refillOut (h : s.Awaits i) : s.refillOut.Awaits i :=
  { h with
    outBuf := by simp [h.outBuf, h.outRest]
    outRest := by simp [h.outRest] }

theorem State.Delivers.drainIn (h : s.Delivers i) : s.drainIn.Delivers i := { h with }

/-- Bytes move into the output buffer, as far as it has room (R63). -/
theorem State.Delivers.refillOut (h : s.Delivers i) : s.refillOut.Delivers i :=
  { h with
    left := by
      have := h.left
      simp only [State.refillOut_run_outBuf, State.refillOut_run_outRest, State.refillOut_run_outLeft,
        List.length_append, List.length_take, List.length_drop]
      omega
    fits := by
      have := h.fits
      simp only [State.refillOut_run_outBuf, State.refillOut_params, List.length_append,
        List.length_take]
      omega }

/-- A DOUT read takes one byte (R59). -/
theorem State.Delivers.takeOut (h : s.Delivers i) {b : Byte} {rest : List Byte}
    (hb : s.run.outBuf = b :: rest) :
    State.Delivers { s with run := { s.run with outBuf := rest, outLeft := s.run.outLeft - 1 } } i := by
  have hleft := h.left
  have hle := h.left_le
  have hfits := h.fits
  rw [hb, List.length_cons] at hleft hfits
  exact { h with
    left := by show rest.length + s.run.outRest.length = s.run.outLeft - 1; omega
    left_le := by show s.run.outLeft - 1 ≤ outLen i; omega
    fits := by show rest.length ≤ s.params.doutDepth; omega }

/-- Acceptance starts the record of the command (R57). -/
theorem State.Clean.accept {w : Word} (h : s.Clean) (hd : decode s.params.ctxPort w = .command i)
    (ha : admitted s.params.ctxPort s.session.mode i = true) : (s.accept i).Awaits i where
  clean := h
  running := rfl
  decodes := by rw [State.accept_run, encode_of_decode hd]; exact hd
  admits := ha
  need := rfl
  notExecuted := rfl
  received := Nat.zero_le _
  held := Nat.le_refl _
  left := rfl
  outBuf := rfl
  outRest := rfl

/-- Execution leaves OutLen bytes to be read, and with output MODE is unchanged (R40, R64, R92). -/
theorem State.Awaits.inv_executed (h : s.Awaits i) (hi : s.run.inBuf.length = s.run.inNeed) {d : Session}
    {O : List Byte} (ht : transaction i s.session s.run.inBuf = .done d O) :
    (s.executed d O).completeIfDone.Inv := by
  by_cases ho : outLen i = 0
  · rw [completeIfDone_of_done (s := s.executed d O) h.running rfl (h.left.trans ho)]
    exact inv_of_idle h.clean rfl rfl
  have hO : O.length = outLen i := length_output (hi.trans h.need) ht
  have hd : (s.executed d O).Delivers i :=
    { h with
      admits := (mode_of_outLen_ne_zero ho ht).symm ▸ h.admits
      hasExecuted := rfl
      received := hi
      left := by
        show (O.take _).length + (O.drop _).length = s.run.outLeft
        rw [← List.length_append, List.take_append_drop, hO, h.left]
      left_le := h.left.le
      fits := List.length_take_le _ _ }
  exact hd.inv_completeIfDone

/-- Execution of a command whose input is complete (R64). -/
theorem State.Awaits.inv_exec (h : s.Awaits i) (hi : s.run.inBuf.length = s.run.inNeed)
    (hx : exec i s = .next t) : t.Inv := by
  cases exec_inv hx with
  | nothing hn => simp [h.running, hi, h.notExecuted] at hn
  | turnedAway _ hc | accepted hc => simp [h.running] at hc
  | badImage => exact inv_raise h.clean.1 (by simp) _
  | applied s0 d O h0 ht =>
    obtain ⟨rfl, -⟩ | ⟨-, hc, -⟩ := h0
    · exact h.inv_executed hi ht
    · simp [h.running] at hc

/-- Presentation of a legal command in IDLE (R57). -/
theorem inv_exec_of_idle {w : Word} (h : s.Inv) (hc : s.ctl = .idle)
    (hd : decode s.params.ctxPort w = .command i) (hx : exec i s = .next t) : t.Inv := by
  have hclean : s.Clean := clean_of_inv h (by simp [hc])
  cases exec_inv hx with
  | nothing => exact h
  | turnedAway c _ hv =>
    refine inv_raise hclean.1 ?_ _
    rcases violation_cause hv with rfl | rfl | rfl <;> simp
  | accepted _ hv hl =>
    refine (hclean.accept hd ((admitted_iff _ _ _).2 hv)).inv fun hi => ?_
    exact Nat.pos_of_ne_zero (hl.resolve_left fun hn => hn hi.symm)
  | badImage hr => simp [hc] at hr
  | applied s0 d O h0 ht =>
    obtain ⟨-, hr, -⟩ | ⟨rfl, -, hv, hi, -⟩ := h0
    · simp [hc] at hr
    · exact (hclean.accept hd ((admitted_iff _ _ _).2 hv)).inv_executed hi.symm ht

/-- While input is missing, the command waits for it (R27, R62). -/
theorem awaits_of_dinFree (h : s.Inv) (hf : s.dinFree = true) :
    ∃ i, s.Awaits i ∧ s.run.inBuf.length < s.run.inNeed := by
  obtain ⟨hc, hlt, -⟩ := dinFree_iff.1 hf
  obtain ⟨i, ⟨ha, -⟩ | ⟨hd, -⟩⟩ := awaits_or_delivers h hc
  · exact ⟨i, ha, hlt⟩
  · exact absurd hd.received hlt.ne

/-- The command of CUR waits, if it has not executed. -/
theorem awaits_of_decode (h : s.Inv) (hc : s.ctl = .run) (he : s.run.executed = false)
    (hd : decode s.params.ctxPort s.run.cur = .command i) : s.Awaits i := by
  obtain ⟨j, ⟨ha, -⟩ | ⟨hdel, -⟩⟩ := awaits_or_delivers h hc
  · cases ha.decodes.symm.trans hd
    exact ha
  · simp [hdel.hasExecuted] at he

/-- The engine's moves keep the invariant (R62, R63). -/
theorem inv_drainIn_refillOut (h : s.Inv) (hc : s.ctl = .run) : s.drainIn.refillOut.Inv := by
  obtain ⟨i, ⟨ha, hl⟩ | ⟨hd, hpos⟩⟩ := awaits_or_delivers h hc
  · exact ha.drainIn.refillOut.inv hl
  · have hinv := hd.drainIn.refillOut.inv_completeIfDone
    rwa [completeIfDone_of_left (s := s.drainIn.refillOut) hpos.ne'] at hinv

/-- A DOUT read keeps the invariant (R59, R65). -/
theorem inv_takeOut (h : s.Inv) (hc : s.ctl = .run) {b : Byte} {rest : List Byte}
    (hb : s.run.outBuf = b :: rest) :
    (State.completeIfDone
      { s with run := { s.run with outBuf := rest, outLeft := s.run.outLeft - 1 } }).Inv := by
  obtain ⟨i, ⟨ha, -⟩ | ⟨hd, -⟩⟩ := awaits_or_delivers h hc
  · simp [ha.outBuf] at hb
  · exact (hd.takeOut hb).inv_completeIfDone

/-- Settles O54: of the ways a step can go, a fault entry and a reset write the whole record, and each other
keeps that the command of CUR waits or delivers. -/
theorem stepKeepsTheInvariant : Obligations.StepKeepsTheInvariant := by
  intro s t h hst
  have hp (n : Nat) : (s.popped n).Inv := h
  cases step_cases hst with
  | readQuiet n | quiet n => exact hp n
  | reset n => exact inv_of_idle ⟨h.1, rfl, rfl⟩ rfl rfl
  | cmdBusy | cmdIllegal | dinBad | doutBad => exact inv_raise h.1 (by simp) _
  | present n w i _ _ hc hd hx => exact inv_exec_of_idle (hp n) hc hd hx
  | dinTake n v _ _ hf hi =>
    obtain ⟨i, ha, hlt⟩ := awaits_of_dinFree (hp n) hf
    refine (ha.takeIn hlt _).inv fun hfull => ?_
    exact Nat.pos_of_ne_zero (hi (by simpa using hfull))
  | dinExec n v i _ _ _ hf hi _ hd hx =>
    obtain ⟨j, ha, hlt⟩ := awaits_of_dinFree (hp n) hf
    cases ha.decodes.symm.trans hd
    exact (ha.takeIn hlt _).inv_exec (by simpa using hi) hx
  | engineExec n i _ _ _ _ hc hi he hd hx =>
    exact (awaits_of_decode (hp n) hc he hd).drainIn.inv_exec hi hx
  | engineMove n _ _ _ hc => exact inv_drainIn_refillOut (hp n) hc
  | doutTake n b rest _ hc _ hb => exact inv_takeOut (hp n) hc hb

end Sys2Proof.Machine

/-! PROOFS. STATUS, bit by bit (R32). -/

namespace Sys2Proof.Machine

/-- A one-bit field stands at its position only. -/
theorem getLsbD_setWidth_shiftLeft (b : BitVec 1) {k j : Nat} (hj : j < 32) :
    (b.setWidth 32 <<< k).getLsbD j = (decide (j = k) && b.getLsbD 0) := by
  rw [BitVec.getLsbD_shiftLeft, BitVec.getLsbD_setWidth]
  rcases Nat.lt_trichotomy j k with h | rfl | h
  · simp [h, h.ne]
  · simp [hj]
  · simp [h.ne', BitVec.getLsbD_of_ge b (j - k) (by omega)]

/-- A bit of STATUS is the bit of the field that stands there. -/
theorem getLsbD_status (s : State) {j : Nat} (hj : j < 32) :
    s.status.getLsbD j =
      (decide (j = 0) && s.busy || decide (j = 1) && s.dinFree || decide (j = 2) && s.doutAvail ||
        decide (j = 3) && s.faulted || !decide (j < 8) && s.cause.code.getLsbD (j - 8) ||
        decide (j = 16) && s.statusMode.getLsbD 0 || decide (j = 17) && s.statusPhase.getLsbD 0) := by
  have h0 := getLsbD_setWidth_shiftLeft (.ofBool s.busy) (k := 0) hj
  rw [BitVec.shiftLeft_zero] at h0
  have hc : (s.cause.code.setWidth 32 <<< 8).getLsbD j =
      (!decide (j < 8) && s.cause.code.getLsbD (j - 8)) := by
    rw [BitVec.getLsbD_shiftLeft, BitVec.getLsbD_setWidth]
    simp [hj, show j - 8 < 32 by omega]
  simp only [State.status, BitVec.getLsbD_or, getLsbD_setWidth_shiftLeft _ hj, h0, hc,
    BitVec.getLsbD_ofBool, decide_true, Bool.true_and]

/-- The bits of STATUS that carry no field are 0. -/
theorem extractLsb'_status_reserved (s : State) {start len : Nat} (hl : start + len ≤ 32)
    (h : 4 ≤ start ∧ start + len ≤ 8 ∨ 12 ≤ start ∧ start + len ≤ 16 ∨ 18 ≤ start) :
    s.status.extractLsb' start len = 0 := by
  apply BitVec.eq_of_getLsbD_eq
  intro j hj
  have hcode : 12 ≤ start + j → s.cause.code.getLsbD (start + j - 8) = false := fun h12 =>
    BitVec.getLsbD_of_ge _ _ (by omega)
  rw [BitVec.getLsbD_extractLsb', getLsbD_status s (by omega)]
  grind

/-- CAUSE stands at bits 11:8 with its code (R241). -/
theorem extractLsb'_status_cause (s : State) : s.status.extractLsb' 8 4 = s.cause.code := by
  apply BitVec.eq_of_getLsbD_eq
  intro j hj
  rw [BitVec.getLsbD_extractLsb', getLsbD_status s (by omega), Nat.add_sub_cancel_left]
  grind

theorem Mode.getLsbD_bit (m : Mode) : m.bit.getLsbD 0 = decide (m = .keyed) := by
  cases m <;> rfl

theorem Phase.getLsbD_bit (p : Phase) : p.bit.getLsbD 0 = decide (p = .up) := by
  cases p <;> rfl

/-- Settles O24: each field is read off at its bits. -/
theorem statusShowsTheEngine : Obligations.StatusShowsTheEngine := by
  intro s
  refine ⟨?_, ?_, ?_, ?_, extractLsb'_status_reserved s (by decide) (by decide), ?_,
    extractLsb'_status_reserved s (by decide) (by decide), ?_, ?_,
    extractLsb'_status_reserved s (by decide) (by decide)⟩
  · rw [getLsbD_status s (by decide)]; simp [State.busy]
  · rw [getLsbD_status s (by decide), Bool.eq_iff_iff, decide_eq_true_iff, ← dinFree_iff]; simp
  · rw [getLsbD_status s (by decide), Bool.eq_iff_iff, decide_eq_true_iff, ← doutAvail_iff]; simp
  · rw [getLsbD_status s (by decide)]; simp [State.faulted]
  · rw [extractLsb'_status_cause]
    cases s.cause <;> rfl
  · intro hc
    have hm : s.statusMode = s.session.mode.bit := by simp [State.statusMode, hc]
    have hp : s.statusPhase = s.session.phase.bit := by simp [State.statusPhase, hc]
    rw [getLsbD_status s (by decide), getLsbD_status s (by decide), hm, hp,
      Mode.getLsbD_bit, Phase.getLsbD_bit]
    simp
  · intro hc
    have hm : s.statusMode = 0 := by simp [State.statusMode, hc]
    have hp : s.statusPhase = 0 := by simp [State.statusPhase, hc]
    rw [getLsbD_status s (by decide), getLsbD_status s (by decide), hm, hp]
    simp

end Sys2Proof.Machine

/-! PROOFS. Accesses without effect: reads, ignored writes (R31 to R38, R56), and every access in FAULT
(R251 to R253). -/

namespace Sys2Proof.Machine

variable {s : State}

/-! ### Reads and ignored writes (R31 to R38, R56) -/

/-- Settles O25: only the read of STATUS uses free values, and only the read of DOUT takes a byte. -/
theorem readsWithoutSideEffects : Obligations.ReadsWithoutSideEffects := by
  intro s addr off rest hp hw hr
  rw [step_of_read hp hw]
  unfold regRead
  cases h : regOf off with
  | status => exact ⟨_, _, by rw [statusRead_eq]; rfl, rfl⟩
  | dout => exact absurd h hr
  | id | ctrl | cmd | din | faultInfo | reserved => exact ⟨_, s.fresh, rfl, rfl⟩

/-- Settles O26: SRST is the one bit of CTRL that is not ignored (R33). -/
theorem ignoredWritesChangeNothing : Obligations.IgnoredWritesChangeNothing := by
  intro s addr v off rest hp hw hr
  rw [step_of_write hp hw]
  unfold regWrite
  rcases hr with h | h | h | h | h | ⟨h, hv⟩ <;> rw [h]
  exact congrArg _ (if_neg (ne_true_of_eq_false hv))

/-! ### FAULT (R251 to R253) -/

/-- The same engine with another session. -/
def State.withSession (s : State) (d : Session) : State := { s with session := d }

@[simp] theorem State.withSession_params (d : Session) : (s.withSession d).params = s.params := rfl
@[simp] theorem State.withSession_ctl (d : Session) : (s.withSession d).ctl = s.ctl := rfl
@[simp] theorem State.withSession_pending (d : Session) : (s.withSession d).pending = s.pending := rfl

/-- `o` and `o'` are one answer to an event in FAULT, on engines of which the second has the session `d`:
the engines stay in FAULT, or a reset makes them equal (R252, R253). -/
def AnswersAlike (d : Session) (o o' : Host.Outcome State Fault Refusal) : Prop :=
  match o with
  | .next t => (t.ctl = .fault ∧ o' = .next (t.withSession d)) ∨ (t.ctl = .idle ∧ o' = .next t)
  | .fault r => o' = .fault r
  | .refused r => o' = .refused r

/-- STATUS shows nothing of the session in FAULT (R41). -/
theorem status_withSession (h : s.ctl = .fault) (d : Session) : (s.withSession d).status = s.status := by
  have hmode : (s.withSession d).statusMode = s.statusMode := by simp [State.statusMode, h]
  have hphase : (s.withSession d).statusPhase = s.statusPhase := by simp [State.statusPhase, h]
  unfold State.status
  rw [hmode, hphase]
  rfl

theorem regRead_alike (h : s.ctl = .fault) (off : BitVec 8) (d : Session) :
    AnswersAlike d (.next (regRead off s)) (.next (regRead off (s.withSession d))) := by
  refine .inl ?_
  unfold regRead
  cases regOf off with
  | status => rw [statusRead_eq, statusRead_eq, status_withSession h]; exact ⟨h, rfl⟩
  | dout => rw [doutRead_of_fault h, doutRead_of_fault (s := s.withSession d) h]; exact ⟨h, rfl⟩
  | id | ctrl | cmd | din | faultInfo | reserved => exact ⟨h, rfl⟩

theorem regWrite_alike (h : s.ctl = .fault) (off : BitVec 8) (v : Word) (d : Session) :
    AnswersAlike d (regWrite off v s) (regWrite off v (s.withSession d)) := by
  unfold regWrite
  cases regOf off with
  | ctrl =>
    unfold ctrlWrite
    by_cases hv : v.getLsbD 0 = true
    · rw [if_pos hv, if_pos hv]; exact .inr ⟨rfl, rfl⟩
    · rw [if_neg hv, if_neg hv]; exact .inl ⟨h, rfl⟩
  | cmd =>
    simp only [cmdWrite_of_fault v h, cmdWrite_of_fault (s := s.withSession d) v h]
    exact .inl ⟨h, rfl⟩
  | din =>
    simp only [dinWrite_of_fault v h, dinWrite_of_fault (s := s.withSession d) v h]
    exact .inl ⟨h, rfl⟩
  | id | status | dout | faultInfo | reserved => exact .inl ⟨h, rfl⟩

theorem engineStep_alike (h : s.ctl = .fault) (d : Session) :
    AnswersAlike d (engineStep s) (engineStep (s.withSession d)) := by
  rw [engineStep_of_not_run (by simp [h]), engineStep_of_not_run (by simp [h])]
  exact .inl ⟨h, rfl⟩

theorem event_alike (h : s.ctl = .fault) (e : HostEvent) (d : Session) :
    AnswersAlike d (event e s) (event e (s.withSession d)) := by
  cases e with
  | read addr =>
    simp only [event, State.withSession_params]
    cases windowOffset s.params addr with
    | none => rfl
    | some off => exact regRead_alike h off d
  | write addr v =>
    simp only [event, State.withSession_params]
    cases windowOffset s.params addr with
    | none => rfl
    | some off => exact regWrite_alike h off v d
  | writeLanes addr v driven =>
    simp only [event, State.withSession_params]
    cases windowOffset s.params addr with
    | none => rfl
    | some off => exact regWrite_alike (s := { s with fresh := s.fresh + 4 }) h off _ d
  | reset => exact .inr ⟨rfl, rfl⟩
  | engine => exact engineStep_alike h d

/-- Settles O33: each event is answered alike in FAULT. -/
theorem faultHidesTheSession : Obligations.FaultHidesTheSession := by
  intro s d h
  change AnswersAlike d (step s) (step (s.withSession d))
  simp only [step, State.withSession_pending]
  cases s.pending with
  | nil => exact engineStep_alike h d
  | cons e rest => exact event_alike (s := { s with pending := rest }) h e d

end Sys2Proof.Machine

/-! PROOFS. The planes and the bytes are two views of one state (R12, R21). -/

namespace Sys2Proof.Machine

/-- Plane `q` of (A, B, C) (R21). -/
def Planes.plane (p : Planes) (q : Nat) : Plane := if q = 0 then p.A else if q = 1 then p.B else p.C

theorem getElem_tab (f : Fin 4 → Lane) (j : Fin 4) : (Plane.tab f)[j] = f j := by
  fin_cases j <;> rfl

theorem tab_getElem (p : Plane) : Plane.tab (fun j => p[j]) = p :=
  Vector.ext fun j hj => getElem_tab _ ⟨j, hj⟩

theorem plane_planesOf (S : StateBytes) {q : Nat} (hq : q < 3) :
    (planesOf S).plane q = Plane.tab (laneAt S (16 * q)) := by
  interval_cases q <;> rfl

/-- Byte `k` of lane `j` of plane `q` stands at index `16 q + 4 j + k` (R21). -/
theorem byteAt_bytesOf (p : Planes) {q k : Nat} (hq : q < 3) (j : Fin 4) (hk : k < 4) :
    byteAt (bytesOf p) (16 * q + 4 * j + k) = ((p.plane q)[j]).extractLsb' (8 * k) 8 := by
  interval_cases q <;> fin_cases j <;> interval_cases k <;> rfl

/-- A lane is the little-endian word of its bytes (R12). -/
theorem le32_extract (w : Lane) :
    le32 (w.extractLsb' 0 8) (w.extractLsb' 8 8) (w.extractLsb' 16 8) (w.extractLsb' 24 8) = w := by
  apply BitVec.eq_of_getLsbD_eq
  intro j hj
  simp only [le32, BitVec.getLsbD_or, BitVec.getLsbD_shiftLeft, BitVec.getLsbD_setWidth,
    BitVec.getLsbD_extractLsb', hj]
  grind

/-- The lanes of the bytes of the planes are the lanes of the planes (R12, R21). -/
theorem laneAt_bytesOf (p : Planes) {q : Nat} (hq : q < 3) (j : Fin 4) :
    laneAt (bytesOf p) (16 * q) j = (p.plane q)[j] := by
  have h0 := byteAt_bytesOf p hq j (k := 0) (by decide)
  have h1 := byteAt_bytesOf p hq j (k := 1) (by decide)
  have h2 := byteAt_bytesOf p hq j (k := 2) (by decide)
  have h3 := byteAt_bytesOf p hq j (k := 3) (by decide)
  rw [Nat.add_zero] at h0
  rw [laneAt, h0, h1, h2, h3]
  exact le32_extract _

theorem tab_laneAt_bytesOf (p : Planes) {q : Nat} (hq : q < 3) :
    Plane.tab (laneAt (bytesOf p) (16 * q)) = p.plane q := by
  rw [funext (laneAt_bytesOf p hq)]
  exact tab_getElem _

/-- A byte index is a plane, a lane and a byte of the lane (R21). -/
theorem byte_index (i : Nat) : 16 * (i / 16) + 4 * (i % 16 / 4) + i % 4 = i := by omega

/-- Byte `i` of the state, in the lane of the planes where it stands (R21). -/
theorem byteAt_planesOf (S : StateBytes) {i : Nat} (hi : i < 48) :
    ((planesOf S).plane (i / 16))[i % 16 / 4].extractLsb' (8 * (i % 4)) 8 = byteAt S i := by
  have hl := extract_laneAt S (16 * (i / 16)) ⟨i % 16 / 4, by omega⟩ (i % 4) (by omega)
  rw [byte_index i, ← getElem_tab (laneAt S (16 * (i / 16))), ← plane_planesOf S (by omega)] at hl
  exact hl

/-- Settles O51: each byte of the state stands in one lane, at the same place in both directions. -/
theorem planesAndBytesAgree : Obligations.PlanesAndBytesAgree := by
  refine ⟨fun S i w hi hw => ?_, fun S => bytes_ext _ _ fun i hi => ?_, fun p => ?_⟩
  · obtain ⟨_, rfl⟩ := Vector.getElem?_eq_some_iff.1 hw
    rw [Vector.getElem?_eq_getElem hi, ← byteAt_of_lt S i hi, ← byteAt_planesOf S hi]
    rfl
  · have hb := byteAt_bytesOf (planesOf S) (q := i / 16) (k := i % 4) (by omega) ⟨i % 16 / 4, by omega⟩
      (by omega)
    rw [byte_index i] at hb
    exact hb.trans (byteAt_planesOf S hi)
  · have hA : Plane.tab (laneAt (bytesOf p) 0) = p.A := tab_laneAt_bytesOf p (q := 0) (by decide)
    have hB : Plane.tab (laneAt (bytesOf p) 16) = p.B := tab_laneAt_bytesOf p (q := 1) (by decide)
    have hC : Plane.tab (laneAt (bytesOf p) 32) = p.C := tab_laneAt_bytesOf p (q := 2) (by decide)
    rw [planesOf, hA, hB, hC]

end Sys2Proof.Machine

/-! PROOFS. What writes the session, and what reset leaves. -/

namespace Sys2Proof.Machine

variable {s t : State} {i : Instr}

/-! ### When the session changes (R67) -/

@[simp] theorem completeIfDone_session (s : State) : s.completeIfDone.session = s.session := by
  obtain ⟨-, -, -, h⟩ | ⟨-, h⟩ := completeIfDone_cases s <;> rw [h]

/-- After its execution a command has executed or is complete (R64, R65). -/
theorem executed_or_idle (s : State) (d : Session) (O : List Byte) :
    (s.executed d O).completeIfDone.run.executed = true ∨ (s.executed d O).completeIfDone.ctl = .idle := by
  obtain ⟨-, -, -, h⟩ | ⟨-, h⟩ := completeIfDone_cases (s.executed d O)
  · exact .inr (by rw [h])
  · exact .inl (by rw [h]; rfl)

/-- A command changes the session only by executing: in RUN, once its input is complete, or at its
presentation when it takes none (R57, R64). -/
theorem exec_of_session_ne (hx : exec i s = .next t) (hne : t.session ≠ s.session) :
    (s.ctl = .run ∧ s.run.executed = false ∧ (t.run.executed = true ∨ t.ctl = .idle)) ∨
      (s.ctl = .idle ∧ inLen i = 0) := by
  cases exec_inv hx with
  | nothing | turnedAway | accepted | badImage => exact absurd rfl hne
  | applied s0 d O h0 =>
    obtain ⟨rfl, hc, -, he⟩ | ⟨-, hc, -, hi, -⟩ := h0
    · exact .inl ⟨hc, he, executed_or_idle _ d O⟩
    · exact .inr ⟨hc, hi⟩

/-- Settles O57: of the ways a step can go, only a reset and the three executions write the session. -/
theorem sessionChangesOnlyWhenACommandExecutes : Obligations.SessionChangesOnlyWhenACommandExecutes := by
  intro s t hst hne
  cases step_cases hst with
  | readQuiet | quiet | cmdBusy | cmdIllegal | dinBad | dinTake | engineMove | doutBad =>
    exact absurd rfl hne
  | doutTake => exact absurd (completeIfDone_session _) hne
  | reset n h => exact .inl h
  | present n w i _ hw hc hd hx =>
    obtain ⟨hrun, -⟩ | ⟨-, hi⟩ := exec_of_session_ne hx hne
    · simp [hc] at hrun
    · obtain rfl := encode_of_decode hd
      exact .inr (.inr ⟨hc, i, hw, hd, hi⟩)
  | dinExec n v i _ hw hc hf hi hl hd hx =>
    obtain ⟨-, he, ht⟩ | ⟨hidle, -⟩ := exec_of_session_ne hx hne
    · exact .inr (.inl ⟨hc, he, hi.ge, ht⟩)
    · simp [hc] at hidle
  | engineExec n i _ hp hw hr hc hi he hd hx =>
    obtain ⟨-, -, ht⟩ | ⟨hidle, -⟩ := exec_of_session_ne hx hne
    · exact .inr (.inl ⟨hc, he, hi.ge.trans (Nat.le_succ _), ht⟩)
    · simp [hc] at hidle

/-! ### Reset (R39, R281) -/

/-- Settles O36: STATUS of the reset state has the one bit of PHASE = Up. -/
theorem resetStateValues : Obligations.ResetStateValues :=
  ⟨rfl, fun i _ => byteAt_zeroBytes i, rfl, rfl, rfl, rfl, rfl, rfl, rfl, rfl, by decide, fun _ _ => rfl⟩

/-- Settles O53: the parameters of log 1 are legal, and the reset state is IDLE with the empty record. -/
theorem resetMeetsTheInvariant : Obligations.ResetMeetsTheInvariant :=
  inv_of_idle ⟨by decide, rfl, rfl⟩ rfl rfl

end Sys2Proof.Machine

/-! PROOFS. A command presented to CMD, and what a command does in IDLE and leaves alone (R57, R64, R92). -/

namespace Sys2Proof.Machine

variable {s : State} {i : Instr}

/-! ### The checks of R57 -/

theorem needsCtxPort_iff : needsCtxPort i = true ↔ i = .permute ∨ i = .ctxSave ∨ i = .ctxRestore := by
  cases i <;> simp [needsCtxPort]

theorem needsKeyed_iff : needsKeyed i = true ↔
    (∃ len cont, i = .squeezeKey len cont ∨ i = .encrypt len cont ∨ i = .decrypt len cont) ∨
      i = .ratchet := by
  cases i <;> simp [needsKeyed]

theorem keyLengthOk_iff {klen idlen : Nat} :
    keyLengthOk klen idlen = true ↔ klen ≠ 0 ∧ klen + idlen + 1 ≤ 44 := by
  simp [keyLengthOk, keyedAbsorbRate]

theorem keyFits_iff : keyFits i = true ↔
    ∀ klen idlen clen, i = .initKeyed klen idlen clen → klen ≠ 0 ∧ klen + idlen + 1 ≤ 44 := by
  cases i with
  | initKeyed klen idlen clen => simp [keyFits, keyLengthOk_iff]
  | _ => simp [keyFits]

/-- In Hash mode a keyed-only command fails the mode check; it needs no port (R57). -/
theorem violation_of_needsKeyed (port : CtxPort) (h : needsKeyed i = true) :
    violation port .hash i = some .modeViolation := by
  have hport : needsCtxPort i = false := by
    cases i with
    | squeezeKey | encrypt | decrypt | ratchet => rfl
    | _ => cases h
  simp [violation, hport, h]

/-- INIT_KEYED fails no check but that of its key length (R57, R190). -/
theorem violation_initKeyed (port : CtxPort) (m : Mode) {klen idlen : Nat} (clen : Nat)
    (h : klen = 0 ∨ 44 < klen + idlen + 1) :
    violation port m (.initKeyed klen idlen clen) = some .keyLength := by
  have hbad : ¬ keyLengthOk klen idlen = true := fun hok => by
    obtain ⟨hne, hle⟩ := keyLengthOk_iff.1 hok
    omega
  simp [violation, needsCtxPort, needsKeyed, keyFits, hbad]

/-! ### A write to CMD (R57, R71) -/

theorem step_of_write_cmd {addr : Nat} {w : Word} {off : BitVec 8} {rest : List HostEvent}
    (hp : s.pending = .write addr w :: rest) (hw : windowOffset s.params addr = some off)
    (hr : regOf off = .cmd) : step s = cmdWrite w (s.before rest) := by
  rw [step_of_write hp hw, regWrite, hr]
  rfl

/-- Settles O6: dispatch of the decoded word. -/
theorem stepRunsThePresentedCommand : Obligations.StepRunsThePresentedCommand := by
  intro s addr w off rest i hp hw hr hc hd
  rw [step_of_write_cmd hp hw hr]
  exact cmdWrite_of_command (s := s.before rest) hc hd

/-- Settles O8: the word placed is a write at CMD's own offset. -/
theorem fetchWordRunsNext : Obligations.FetchWordRunsNext := by
  intro s w i hc hd
  have hword : BitVec.ofNat 32 (w.toNat % 2 ^ 32) = w := by
    rw [Nat.mod_eq_of_lt w.isLt, BitVec.ofNat_toNat, BitVec.setWidth_eq]
  have hp : (s.withFetchWord 32 w.toNat).pending = writeCmd s.params w :: s.pending := by
    rw [State.withFetchWord, hword, writeCmd]
  exact (step_of_writeCmd hp).trans (cmdWrite_of_command hc hd)

/-- Settles O9: each refusal is a fault entry with the word, which is the word of its command. -/
theorem cmdWriteChecksInOrder : Obligations.CmdWriteChecksInOrder := by
  intro s addr w off rest hp hw hr failed
  have hstep : step s = cmdWrite w (s.before rest) := step_of_write_cmd hp hw hr
  have hviolation {i : Instr} {c : Cause} (hc : s.ctl = .idle)
      (hd : decode s.params.ctxPort w = .command i)
      (hv : violation s.params.ctxPort s.session.mode i = some c) : step s = .next (failed c) := by
    rw [hstep, cmdWrite_of_command (s := s.before rest) hc hd,
      exec_of_violation (s := s.before rest) hc hv, encode_of_decode hd]
    rfl
  refine ⟨fun hc => ?_, fun hc => ?_, fun why hc hd => ?_, fun i hc hd hi hm => ?_,
    fun klen idlen clen hc hd hk => ?_⟩
  · exact hstep.trans (cmdWrite_of_fault (s := s.before rest) w hc)
  · exact hstep.trans (cmdWrite_of_run (s := s.before rest) w hc)
  · exact hstep.trans (cmdWrite_of_illegal (s := s.before rest) hc hd)
  · exact hviolation hc hd (hm ▸ violation_of_needsKeyed _ (needsKeyed_iff.2 hi))
  · exact hviolation hc hd (violation_initKeyed _ _ clen hk)

/-! ### Acceptance (R57, R92) -/

/-- An accepted command that takes no input is due at once (R57, R64). -/
theorem readyFor_accept (s : State) (h : inLen i = 0) : (s.accept i).ReadyFor i :=
  ⟨rfl, rfl, h.symm, rfl, rfl⟩

/-- A command that passes the checks is only accepted while it has input to take, or latency (R57;
log 4). -/
theorem exec_of_accept_waiting (hc : s.ctl = .idle)
    (hv : violation s.params.ctxPort s.session.mode i = none)
    (h : inLen i ≠ 0 ∨ s.params.permLatency ≠ 0) : exec i s = .next (s.accept i) := by
  by_cases hl : s.params.permLatency = 0
  · have hin : inLen i ≠ 0 := h.resolve_right (not_not_intro hl)
    rw [exec_of_accept hc hv hl, execute_of_incomplete (s := s.accept i) hin.symm]
  · exact exec_of_accept_later hc hv hl

/-- Settles O10: the three checks of `admitted`, the table of R92, and acceptance. -/
theorem acceptedCommandStartsItsRecord : Obligations.AcceptedCommandStartsItsRecord := by
  refine ⟨fun port m i => ?_, fun i => by cases i <;> rfl, fun i s hc ha => ⟨fun hi hl => ?_, ?_⟩⟩
  · rw [← needsCtxPort_iff, ← needsKeyed_iff, ← keyFits_iff]
    simp [admitted, imp_iff_not_or, and_assoc]
  · have hv := (admitted_iff _ _ _).1 ha
    exact ⟨readyFor_accept s hi,
      (exec_of_accept hc hv hl).trans (exec_of_run (s := s.accept i) i rfl).symm⟩
  · exact exec_of_accept_waiting hc ((admitted_iff _ _ _).1 ha)

/-! ### Execution (R64, R65) -/

/-- Settles O41, command by command (`length_output`). -/
theorem outputHasItsLength : Obligations.OutputHasItsLength :=
  fun _ _ _ _ _ hI h => length_output hI h

/-- Only CTX_RESTORE can fail in its transaction (R222). -/
theorem transaction_done (h : i ≠ .ctxRestore) (d : Session) (I : List Byte) :
    ∃ d' O, transaction i d I = .done d' O := by
  cases ht : transaction i d I with
  | done d' O => exact ⟨d', O, rfl⟩
  | fault c info => exact absurd (transaction_fault ht).1 h

/-- Settles O20: acceptance leaves the command with all of its input, so it is executed, and it delivers its
output, if there is any. -/
theorem noInputCommandsExecuteWhenPresented : Obligations.NoInputCommandsExecuteWhenPresented := by
  intro i s hc hl hi ha
  have hne : i ≠ .ctxRestore := fun h => by simp [h, inLen, contextImageLen] at hi
  obtain ⟨d, O, ht⟩ := transaction_done hne s.session []
  have hx : exec i s = .next (s.filled i 0 [] d O) := by
    rw [exec_of_accept hc ((admitted_iff _ _ _).1 ha) hl, ← fed_of_complete (X := []) hi.symm ht]
    rfl
  refine ⟨d, O, _, ht, hx, completeIfDone_session _, fun hO => ?_, fun hO => ?_⟩
  · subst hO
    rw [State.filled, List.take_nil, List.drop_nil, delivering_nil]
    exact ⟨rfl, rfl⟩
  · have hbytes : O.take s.params.doutDepth ≠ [] ∨ O.drop s.params.doutDepth ≠ [] := by
      rwa [← not_and_or, ← List.append_eq_nil_iff, List.take_append_drop]
    rw [State.filled, delivering_of_ne hbytes]
    exact ⟨rfl, rfl, List.take_append_drop _ _⟩

/-- Execution enters no FAULT when the transaction succeeds (R64, R65). -/
theorem ctl_executed_completeIfDone (d : Session) (O : List Byte) (h : s.ctl = .run) :
    (s.executed d O).completeIfDone.ctl ≠ .fault := by
  obtain ⟨-, -, -, h'⟩ | ⟨-, h'⟩ := completeIfDone_cases (s.executed d O) <;> rw [h']
  · simp
  · simp [State.executed, h]

/-- Settles O21: a fault entry, acceptance and execution each leave what `exec_cases` shows. -/
theorem commandsFrame : Obligations.CommandsFrame := by
  intro i s t hx
  cases exec_inv hx with
  | nothing | accepted => exact ⟨rfl, rfl, rfl, rfl, fun _ => ⟨rfl, rfl⟩, fun _ => rfl⟩
  | turnedAway | badImage =>
    exact ⟨rfl, rfl, rfl, rfl, fun h => absurd rfl h, fun _ => rfl⟩
  | applied s0 d O h0 ht =>
    obtain ⟨r, rfl⟩ : ∃ r, s0 = { s with ctl := .run, run := r } := by
      obtain ⟨rfl, hc, -⟩ | ⟨rfl, -⟩ := h0
      · exact ⟨_, by rw [← hc]⟩
      · exact ⟨_, rfl⟩
    obtain ⟨hparams, hpending, hreplies, hfresh, hcause, hinfo, hsession⟩ :=
      executed_completeIfDone_frame { s with ctl := .run, run := r } d O
    refine ⟨hparams, hpending, hreplies, hfresh, fun _ => ⟨hcause, hinfo⟩, ?_⟩
    rintro (hf | ⟨he, hr⟩ | rfl)
    · exact absurd hf (ctl_executed_completeIfDone d O rfl)
    · obtain hdone | hidle := executed_or_idle { s with ctl := .run, run := r } d O
      · simp [he] at hdone
      · simp [hr] at hidle
    · exact hsession.trans (TxnResult.done.inj ht).1.symm

end Sys2Proof.Machine

/-! PROOFS. The data ports: DIN writes, DOUT reads, and the engine's step that makes them ready (R58, R59,
R62 to R65). -/

namespace Sys2Proof.Machine

variable {s : State} {i : Instr}

/-! ### A write to DIN (R58, R64) -/

theorem step_of_write_din {addr : Nat} {v : Word} {off : BitVec 8} {rest : List HostEvent}
    (hp : s.pending = .write addr v :: rest) (hw : windowOffset s.params addr = some off)
    (hr : regOf off = .din) : step s = dinWrite v (s.before rest) := by
  rw [step_of_write hp hw, regWrite, hr]
  rfl

/-- Settles O7: a DIN write takes the byte, an engine step empties the input buffer, and CUR's command
runs on what they leave. -/
theorem stepRunsTheCommandWhenItsInputIsComplete :
    Obligations.StepRunsTheCommandWhenItsInputIsComplete := by
  refine ⟨fun s addr v off rest i hp hw hr hc hf hi hl hd => ?_, fun s rest i hp hc hi he hd => ?_⟩
  · rw [step_of_write_din hp hw hr]
    exact dinWrite_of_last (s := s.before rest) hc hf hi hl hd
  · rw [step_of_engine hp]
    exact engineStep_of_due (s := s.before rest) hc hi he hd

/-- Settles O22: the cases of a DIN write. -/
theorem dinWriteDeliversOneByte : Obligations.DinWriteDeliversOneByte := by
  intro s addr v off rest hp hw hr failed taken
  have hstep : step s = dinWrite v (s.before rest) := step_of_write_din hp hw hr
  have hlen : taken.run.inBuf.length = s.run.inBuf.length + 1 := by simp [taken]
  rw [hlen]
  refine ⟨fun hc => ?_, fun hc => ?_, fun hc hf => ?_, fun hc hf hi => ?_, fun hc hf hl => ?_,
    fun i hc hf hi hl hd => ?_⟩
  · exact hstep.trans (dinWrite_of_fault (s := s.before rest) v hc)
  · exact hstep.trans (dinWrite_of_idle (s := s.before rest) v hc)
  · exact hstep.trans (dinWrite_of_full (s := s.before rest) v hc hf)
  · exact hstep.trans (dinWrite_of_take (s := s.before rest) hc hf fun h => absurd h hi)
  · exact hstep.trans (dinWrite_of_take (s := s.before rest) hc hf fun _ => hl)
  · exact hstep.trans (dinWrite_of_last (s := s.before rest) hc hf hi hl hd)

/-! ### A read of DOUT (R59, R65) -/

theorem step_of_read_dout {addr : Nat} {off : BitVec 8} {rest : List HostEvent}
    (hp : s.pending = .read addr :: rest) (hw : windowOffset s.params addr = some off)
    (hr : regOf off = .dout) : step s = .next (doutRead (s.before rest)) := by
  rw [step_of_read hp hw, regRead, hr]
  rfl

/-- The first byte of OUT_BUF is read, and `more` follow it (R59). -/
def State.takeOut (s : State) (more : List Byte) : State :=
  { s with run := { s.run with outBuf := more, outLeft := s.run.outLeft - 1 } }

theorem doutRead_of_avail {b : Byte} {more : List Byte} (ha : s.doutAvail = true)
    (hb : s.run.outBuf = b :: more) :
    doutRead s = (s.takeOut more).completeIfDone.reply (zext32 b) :=
  doutRead_of_byte (doutAvail_iff.1 ha).1 ha hb

/-- Settles O23: the cases of a DOUT read; OUT_LEFT = 1 is the last byte. -/
theorem doutReadRemovesOneByte : Obligations.DoutReadRemovesOneByte := by
  intro s addr off rest hp hw hr failed
  rw [step_of_read_dout hp hw hr]
  refine ⟨fun hc => ?_, fun hc => ?_, fun hc ha => ?_, fun b more hc ha hb => ?_⟩
  · exact congrArg _ (doutRead_of_fault (s := s.before rest) hc)
  · exact congrArg _ (doutRead_of_idle (s := s.before rest) hc)
  · exact congrArg _ (doutRead_of_empty (s := s.before rest) hc ha)
  · obtain ⟨-, he, hpos, -⟩ := doutAvail_iff.1 ha
    rw [doutRead_of_avail (s := s.before rest) ha hb]
    split
    · next hlast =>
      have hnone : ((s.before rest).takeOut more).run.outLeft = 0 := Nat.sub_eq_zero_of_le hlast.le
      rw [completeIfDone_of_done (s := (s.before rest).takeOut more) hc he hnone]
      rfl
    · next hmore =>
      have hleft : ((s.before rest).takeOut more).run.outLeft ≠ 0 :=
        Nat.sub_ne_zero_of_lt (Nat.lt_of_le_of_ne hpos (Ne.symm hmore))
      rw [completeIfDone_of_left hleft]
      rfl

/-! ### The engine's step (R62, R63) -/

/-- With the input buffer emptied there is room for the next byte (R62). -/
theorem engineStep_dinFree (hc : s.ctl = .run) (hdepth : 1 ≤ s.params.dinDepth)
    (hi : s.run.inBuf.length < s.run.inNeed) : ∃ t, engineStep s = .next t ∧ t.dinFree = true :=
  ⟨_, engineStep_of_move hc fun h => hi.ne h.1, dinFree_iff.2 ⟨hc, hi, hdepth⟩⟩

/-- A command that is due executes, and the output buffer holds its first byte (R63, R64). -/
theorem State.Awaits.engineStep_doutAvail (h : s.Awaits i) (hdepth : 1 ≤ s.params.doutDepth)
    (hi : s.run.inBuf.length = s.run.inNeed) (hpos : 0 < s.run.outLeft) :
    ∃ t, engineStep s = .next t ∧ t.doutAvail = true := by
  have hout : 0 < outLen i := h.left ▸ hpos
  have hne : i ≠ .ctxRestore := fun h => by simp [h, outLen] at hout
  obtain ⟨d, O, ht⟩ := transaction_done hne s.session s.run.inBuf
  have hO : O.length = outLen i := length_output (hi.trans h.need) ht
  have hbuf : O.take s.params.doutDepth ≠ [] := List.length_pos_iff.1 (by rw [List.length_take]; omega)
  refine ⟨_, (engineStep_of_due h.running hi h.notExecuted h.decodes).trans (exec_of_run i h.running), ?_⟩
  rw [execute_done_left (s := s.drainIn) h.notExecuted hi hpos.ne' ht]
  exact doutAvail_iff.2 ⟨h.running, rfl, hpos, hbuf⟩

/-- The next byte of a command that has executed moves into the output buffer (R63). -/
theorem State.Delivers.engineStep_doutAvail (h : s.Delivers i) (hdepth : 1 ≤ s.params.doutDepth)
    (hpos : 0 < s.run.outLeft) : ∃ t, engineStep s = .next t ∧ t.doutAvail = true := by
  have hmove := engineStep_of_move h.running fun hdue => by simp [h.hasExecuted] at hdue
  have hbuf : s.drainIn.refillOut.run.outBuf ≠ [] := by
    have hleft := h.left
    rw [State.refillOut_run_outBuf, ← List.length_pos_iff, List.length_append, List.length_take]
    simp only [State.drainIn_run, State.drainIn_params]
    omega
  exact ⟨_, hmove, doutAvail_iff.2 ⟨h.running, h.hasExecuted, hpos, hbuf⟩⟩

/-- Settles O29: while input is missing the engine empties its buffer; then the command executes, or has
executed and delivers. -/
theorem engineStepMakesThePortsReady : Obligations.EngineStepMakesThePortsReady := by
  intro s rest hinv hc hp
  have ⟨⟨_, hdin, hdout⟩, _⟩ := hinv
  rw [step_of_engine hp]
  refine ⟨engineStep_dinFree (s := s.before rest) hc hdin, fun hi hpos => ?_⟩
  obtain ⟨i, ⟨ha, -⟩ | ⟨hd, -⟩⟩ := awaits_or_delivers (s := s.before rest) hinv hc
  · exact ha.engineStep_doutAvail hdout hi hpos
  · exact hd.engineStep_doutAvail hdout hpos

end Sys2Proof.Machine

/-! PROOFS. The window: the register map, narrow writes, reads and S, and no stop inside it (R50 to R53,
R67, R68). -/

namespace Sys2Proof.Machine

variable {s : State}

/-! ### Offsets (R50 to R52) -/

theorem regOf_mask (off : BitVec 8) : regOf (off &&& 0xFC) = regOf off := by
  have h : (off &&& 0xFC).extractLsb' 2 6 = off.extractLsb' 2 6 := by
    apply BitVec.eq_of_getLsbD_eq
    intro j hj
    interval_cases j <;> simp
  rw [regOf, h, regOf]

theorem regOf_of_le {off : BitVec 8} (h : 0x1C ≤ off) : regOf off = .reserved := by
  have hsel : 7 ≤ (off.extractLsb' 2 6).toNat := by
    have h28 : 28 ≤ off.toNat := h
    have := off.isLt
    rw [BitVec.extractLsb'_toNat, Nat.shiftRight_eq_div_pow]
    omega
  obtain ⟨k, hk⟩ := Nat.exists_eq_add_of_le' hsel
  rw [regOf, hk]
  rfl

theorem windowOffset_eq_some_iff {p : Params} {addr : Nat} {off : BitVec 8} :
    windowOffset p addr = some off ↔ addr = p.base + off.toNat := by
  have hoff := off.isLt
  constructor
  · intro h
    unfold windowOffset at h
    split at h
    · next hin =>
      obtain rfl := Option.some.inj h
      rw [BitVec.toNat_ofNat]
      omega
    · cases h
  · rintro rfl
    rw [windowOffset_base p _ hoff, BitVec.ofNat_toNat, BitVec.setWidth_eq]

/-- Settles O27: an access depends on its offset through the register it selects. -/
theorem lowAddressBitsAreIgnored : Obligations.LowAddressBitsAreIgnored := by
  refine ⟨fun off v s => ?_, ⟨rfl, rfl, rfl, rfl, rfl, rfl, rfl, fun _ => regOf_of_le⟩,
    fun _ _ _ => windowOffset_eq_some_iff⟩
  simp only [regRead, regWrite, regOf_mask, and_self]

/-! ### Narrow writes (R53) -/

/-- The lanes of the value a narrow write delivers. -/
theorem extract_fillLanes (v : Word) (driven : BitVec 4) (n : Nat) {k : Nat} (hk : k < 4) :
    (fillLanes v driven n).extractLsb' (8 * k) 8 =
      if driven.getLsbD k then v.extractLsb' (8 * k) 8 else Config.freeLaneByte (n + k) := by
  unfold fillLanes
  interval_cases k
  · exact (extract_le32 _ _ _ _).1
  · exact (extract_le32 _ _ _ _).2.1
  · exact (extract_le32 _ _ _ _).2.2.1
  · exact (extract_le32 _ _ _ _).2.2.2

/-- Settles O28: the value is the one whose undriven lanes are the next four free bytes. -/
theorem narrowWriteIsAFullWrite : Obligations.NarrowWriteIsAFullWrite := by
  intro s addr v driven rest hp
  refine ⟨fillLanes v driven s.fresh, s.fresh + 4, fun k hk hd => ?_, ?_⟩
  · rw [extract_fillLanes v driven s.fresh hk, if_pos hd]
  · rw [step, hp]
    rfl

/-! ### Reads and S (R67) -/

/-- The same engine with other bytes of S. -/
def State.withS (s : State) (S : StateBytes) : State := s.withSession { s.session with S := S }

theorem completeIfDone_withS (s : State) (S : StateBytes) :
    (s.withS S).completeIfDone = s.completeIfDone.withS S := by
  rw [State.completeIfDone, State.completeIfDone, apply_ite (State.withS · S)]
  rfl

theorem doutRead_withS (s : State) (S : StateBytes) : doutRead (s.withS S) = (doutRead s).withS S := by
  cases hc : s.ctl with
  | fault => rw [doutRead_of_fault hc, doutRead_of_fault (s := s.withS S) hc]; rfl
  | idle => rw [doutRead_of_idle hc, doutRead_of_idle (s := s.withS S) hc]; rfl
  | run =>
    cases ha : s.doutAvail with
    | false => rw [doutRead_of_empty hc ha, doutRead_of_empty (s := s.withS S) hc ha]; rfl
    | true =>
      obtain ⟨-, -, -, hne⟩ := doutAvail_iff.1 ha
      obtain ⟨b, more, hb⟩ := List.exists_cons_of_ne_nil hne
      rw [doutRead_of_avail ha hb, doutRead_of_avail (s := s.withS S) ha hb]
      exact congrArg (State.reply · (zext32 b)) (completeIfDone_withS (s.takeOut more) S)

/-- STATUS reads MODE and PHASE of the session, and no register reads S. -/
theorem regRead_withS (off : BitVec 8) (s : State) (S : StateBytes) :
    regRead off (s.withS S) = (regRead off s).withS S := by
  unfold regRead
  cases regOf off with
  | status => rw [statusRead_eq, statusRead_eq]; rfl
  | dout => exact doutRead_withS s S
  | id | ctrl | cmd | din | faultInfo | reserved => rfl

/-- Settles O34: a read acts alike on both engines, whatever its register. -/
theorem noReadDependsOnS : Obligations.NoReadDependsOnS := by
  intro s S addr rest hp
  simp only [step, hp, event]
  cases windowOffset s.params addr with
  | none => rfl
  | some off => exact congrArg _ (regRead_withS off { s with pending := rest } S)

/-! ### No stop (R50, R68) -/

/-- The command a CMD write presents always has a next state. -/
theorem cmdWrite_next (w : Word) (s : State) : ∃ t, cmdWrite w s = .next t := by
  cases hc : s.ctl with
  | fault => exact ⟨_, cmdWrite_of_fault w hc⟩
  | run => exact ⟨_, cmdWrite_of_run w hc⟩
  | idle =>
    cases hd : decode s.params.ctxPort w with
    | illegal why => exact ⟨_, cmdWrite_of_illegal hc hd⟩
    | command i =>
      obtain ⟨t, ht, -⟩ := exec_cases i s
      exact ⟨t, (cmdWrite_of_command hc hd).trans ht⟩

/-- While input is missing, CUR is a command (R57). -/
theorem dinWrite_next (h : s.Inv) (v : Word) : ∃ t, dinWrite v s = .next t := by
  cases hc : s.ctl with
  | fault => exact ⟨_, dinWrite_of_fault v hc⟩
  | idle => exact ⟨_, dinWrite_of_idle v hc⟩
  | run =>
    cases hf : s.dinFree with
    | false => exact ⟨_, dinWrite_of_full v hc hf⟩
    | true =>
      by_cases hlast : s.run.inBuf.length + 1 = s.run.inNeed ∧ s.params.permLatency = 0
      · obtain ⟨hi, hl⟩ := hlast
        obtain ⟨i, ha, -⟩ := awaits_of_dinFree h hf
        obtain ⟨t, ht, -⟩ := exec_cases i (s.takeIn (v.extractLsb' 0 8))
        exact ⟨t, (dinWrite_of_last hc hf hi hl ha.decodes).trans ht⟩
      · exact ⟨_, dinWrite_of_take hc hf fun hi hl => hlast ⟨hi, hl⟩⟩

theorem regWrite_next (h : s.Inv) (off : BitVec 8) (v : Word) : ∃ t, regWrite off v s = .next t := by
  unfold regWrite
  cases regOf off with
  | cmd => exact cmdWrite_next v s
  | din => exact dinWrite_next h v
  | id | status | ctrl | dout | faultInfo | reserved => exact ⟨_, rfl⟩

/-- When a command is due, CUR is a command (R57). -/
theorem engineStep_next (h : s.Inv) : ∃ t, engineStep s = .next t := by
  by_cases hc : s.ctl = .run
  · by_cases hdue : s.run.inBuf.length = s.run.inNeed ∧ s.run.executed = false
    · obtain ⟨hi, he⟩ := hdue
      obtain ⟨-, -, hrun, -⟩ := h
      obtain ⟨i, hd⟩ := command_of_recordOk (hrun hc)
      obtain ⟨t, ht, -⟩ := exec_cases i s.drainIn
      exact ⟨t, (engineStep_of_due hc hi he hd).trans ht⟩
    · exact ⟨_, engineStep_of_move hc hdue⟩
  · exact ⟨_, engineStep_of_not_run hc⟩

theorem event_next (h : s.Inv) {e : HostEvent} (he : inWindow s.params e = true) :
    ∃ t, event e s = .next t := by
  cases e with
  | reset => exact ⟨_, rfl⟩
  | engine => exact engineStep_next h
  | read addr =>
    obtain ⟨off, ho⟩ := Option.isSome_iff_exists.1 he
    exact ⟨regRead off s, by simp only [event, ho]⟩
  | write addr v =>
    obtain ⟨off, ho⟩ := Option.isSome_iff_exists.1 he
    simp only [event, ho]
    exact regWrite_next h off v
  | writeLanes addr v driven =>
    obtain ⟨off, ho⟩ := Option.isSome_iff_exists.1 he
    simp only [event, ho]
    exact regWrite_next (s := { s with fresh := s.fresh + 4 }) h off _

/-- Settles O55: each event of the window, and the silent host, has a next state. -/
theorem stepNeverStopsInsideTheWindow : Obligations.StepNeverStopsInsideTheWindow := by
  intro s h hin
  unfold step
  cases hp : s.pending with
  | nil => exact engineStep_next h
  | cons e rest => exact event_next (s := { s with pending := rest }) h (hin e (by rw [hp]; rfl))

end Sys2Proof.Machine

/-! PROOFS. The decoder: which words are commands, and of which row of the opcode table (R85 to R91). -/

namespace Sys2Proof

/-! ### A legal word's command -/

/-- The fields of a legal word are operands that fit (R83, R84, R90). -/
theorem wellFormed_of_decode {port : CtxPort} {w : Word} {i : Instr}
    (h : decode port w = .command i) : i.WellFormed := by
  have hlen : lenFits (lenOf w) = true := decide_eq_true (w.extractLsb' 16 16).isLt
  obtain ⟨-, ⟨-, hi⟩ | ⟨-, -, hi⟩ | ⟨-, hi⟩ | ⟨-, -, rfl⟩⟩ := decode_cases h
  · rcases hi with rfl | rfl <;> rfl
  · rcases hi with rfl | rfl | rfl <;> rfl
  · rcases hi with rfl | rfl | rfl | rfl | rfl <;> exact hlen
  · have hk : keyFieldFits (klenOf w) = true := decide_eq_true (w.extractLsb' 8 6).isLt
    have hd : keyFieldFits (idlenOf w) = true := decide_eq_true (w.extractLsb' 16 6).isLt
    have hc : clenFits (clenOf w) = true := decide_eq_true (w.extractLsb' 24 8).isLt
    simp [Instr.WellFormed, Instr.wellFormed, hk, hd, hc]

/-- A word of the context port's opcodes is legal only where the port is present (R89). -/
theorem ctxPort_of_decode {port : CtxPort} {w : Word} {i : Instr} (h : decode port w = .command i)
    (hopc : opcOf w = 0x10 ∨ opcOf w = 0x11 ∨ opcOf w = 0x12) : port = .present := by
  obtain ⟨hi, ⟨-, hN⟩ | ⟨-, hport, -⟩ | ⟨-, hL⟩ | ⟨-, -, rfl⟩⟩ := decode_cases h
  · rw [hi] at hopc
    rcases hN with rfl | rfl <;> exact absurd hopc (by decide)
  · exact hport
  · rw [hi] at hopc
    rcases hL with rfl | rfl | rfl | rfl | rfl <;> exact absurd hopc (by simp [Instr.opcode])
  · rw [hi] at hopc
    exact absurd hopc (by simp [Instr.opcode])

/-- Settles O2: the fields of the word are the operands. -/
theorem decodeOfEncodeIsTheCommand : Obligations.DecodeOfEncodeIsTheCommand :=
  fun i hw => Machine.decode_encode .present i hw fun _ => rfl

/-- Settles O3: the reserved bits of a legal word are 0, so its opcode and fields are all of it. -/
theorem legalWordsAreEncodings : Obligations.LegalWordsAreEncodings := by
  refine fun port w i h => ⟨wellFormed_of_decode h, encode_of_decode h, fun hi => ?_⟩
  apply ctxPort_of_decode h
  rw [(decode_cases h).1]
  rcases hi with rfl | rfl | rfl <;> simp [Instr.opcode]

/-- Settles O5: only the three opcodes of the context port read P_CTX_PORT. -/
theorem decodeWithoutTheContextPort : Obligations.DecodeWithoutTheContextPort := by
  refine fun w => ⟨fun hopc => ?_, fun hopc => ?_⟩
  · cases hd : decode .absent w with
    | illegal why => exact ⟨why, rfl⟩
    | command i => cases ctxPort_of_decode hd hopc
  · have h10 : opcOf w ≠ 0x10#8 := fun h => hopc (.inl h)
    have h11 : opcOf w ≠ 0x11#8 := fun h => hopc (.inr (.inl h))
    have h12 : opcOf w ≠ 0x12#8 := fun h => hopc (.inr (.inr h))
    simp only [decode, if_neg h10, if_neg h11, if_neg h12]

/-- Settles O1: each word is evaluated. -/
theorem decodeReadsTheWordsOfTheSpec : Obligations.DecodeReadsTheWordsOfTheSpec := by
  unfold Obligations.DecodeReadsTheWordsOfTheSpec
  decide

end Sys2Proof

/-! PROOFS. Continuation: a chunk that is a whole number of blocks, and then the rest (R87, R147). -/

namespace Sys2Proof.Machine

variable {d : Session} {X Y : List Byte}

/-! ### One chunk and the next -/

theorem absorbAny_append {r : Nat} (cd : Flag) (hr : 1 ≤ r) (hX : X ≠ [] ∧ r ∣ X.length)
    (hY : Y ≠ []) : absorbAny (absorbAny d X r cd) Y r .zero = absorbAny d (X ++ Y) r cd := by
  rw [absorbAny, absorbAny, absorbAny, split_append X Y r hr hX.1 hX.2 hY,
    absorbBlocks_append _ _ _ _ (split_ne_nil X r)]

theorem squeezeAny_append {n : Nat} (cu : Flag) (m : Nat) (hn : n ≠ 0 ∧ squeezeRate d.mode ∣ n) :
    ((squeezeCont (squeezeAny d n cu).1 m).1,
      (squeezeAny d n cu).2 ++ (squeezeCont (squeezeAny d n cu).1 m).2) =
      squeezeAny d (n + m) cu := by
  have hle : squeezeRate d.mode ≤ n := Nat.le_of_dvd (Nat.pos_of_ne_zero hn.1) hn.2
  have hdvd : squeezeRate (d.up cu).mode ∣ n - squeezeRate d.mode := Nat.dvd_sub hn.2 dvd_rfl
  rw [squeezeAny_eq, squeezeAny_eq, Nat.min_eq_right hle, Nat.min_eq_right (by omega),
    Nat.sub_add_comm hle, squeezeCont_append _ _ _ hdvd, List.append_assoc]

theorem crypt_append {dir : Direction} (cu : Flag) (hX : X ≠ [] ∧ cryptRate ∣ X.length)
    (hY : Y ≠ []) :
    ((crypt (crypt d X dir cu).1 Y dir .zero).1,
      (crypt d X dir cu).2 ++ (crypt (crypt d X dir cu).1 Y dir .zero).2) =
      crypt d (X ++ Y) dir cu := by
  rw [crypt, crypt, crypt, split_append X Y cryptRate (by decide) hX.1 hX.2 hY,
    cryptBlocks_append _ _ _ _ _ (split_ne_nil X cryptRate)]

/-! ### Any number of chunks -/

/-- Chunks one after another are the operation on the joined chunks, when two chunks are and the
condition on every chunk but the last passes to the chunk that joins two. -/
theorem foldl_chunks {α σ : Type} {join : α → α → α} {whole : α → σ} {next : σ → α → σ}
    {Whole Continues : α → Prop} (hjoin : ∀ X Y, Whole X → Whole Y → Whole (join X Y))
    (hnext : ∀ X Y, Whole X → Continues Y → next (whole X) Y = whole (join X Y)) (X : α) (Ys : List α)
    (hsplit : (∀ Z ∈ (X :: Ys).dropLast, Whole Z) ∧ ∀ Y ∈ Ys, Continues Y) :
    Ys.foldl next (whole X) = whole (Ys.foldl join X) := by
  induction Ys generalizing X with
  | nil => rfl
  | cons Y Ys ih =>
    obtain ⟨hW, hC⟩ := hsplit
    have hX : Whole X := hW X (by simp)
    rw [List.foldl_cons, List.foldl_cons, hnext X Y hX (hC Y (by simp))]
    refine ih (join X Y) ⟨fun Z hZ => ?_, fun Z hZ => hC Z (by simp [hZ])⟩
    cases Ys with
    | nil => simp at hZ
    | cons Y' Ys =>
      rcases List.mem_cons.1 hZ with rfl | hZ
      · exact hjoin X Y hX (hW Y (by simp))
      · exact hW Z (by simp [hZ])

/-- Two whole numbers of blocks in a row are one. -/
theorem whole_append (r : Nat) (X Y : List Byte) (hX : X ≠ [] ∧ r ∣ X.length)
    (hY : Y ≠ [] ∧ r ∣ Y.length) : X ++ Y ≠ [] ∧ r ∣ (X ++ Y).length := by
  rw [List.length_append]
  exact ⟨List.append_ne_nil_of_left_ne_nil hX.1 Y, hX.2.add hY.2⟩

/-- An input served in chunks that split it at the rate (R87). -/
theorem foldl_inputChunks {σ : Type} {whole : List Byte → σ} {next : σ → List Byte → σ} {r : Nat}
    (hnext : ∀ X Y, X ≠ [] ∧ r ∣ X.length → Y ≠ [] → next (whole X) Y = whole (X ++ Y))
    (X : List Byte) (Ys : List (List Byte)) (h : SplitsAtRate r X Ys) :
    Ys.foldl next (whole X) = whole (X ++ Ys.flatten) := by
  have hflat : Ys.foldl (· ++ ·) X = X ++ Ys.flatten := by
    simpa using List.foldl_append_eq_append (l := Ys) (f := id) (l' := X)
  rw [← hflat]
  exact foldl_chunks (whole_append r) hnext X Ys h

/-- Settles O42: by induction over the chunks, for each operation from its law for two. -/
theorem continuationChunksEqualTheWholeOperation :
    Obligations.ContinuationChunksEqualTheWholeOperation := by
  refine ⟨fun d r cd X Ys hr h => ?_, fun d cu n ns h => ?_, fun d dir cu X Ys h => ?_⟩
  · exact foldl_inputChunks (whole := fun X => absorbAny d X r cd)
      (fun X Y => absorbAny_append cd hr) X Ys h
  · have hsum : ns.foldl (· + ·) n = n + ns.sum := by
      rw [← List.sum_cons, List.sum_eq_foldl, List.foldl_cons, Nat.zero_add]
    rw [← hsum]
    exact foldl_chunks (whole := fun n => squeezeAny d n cu)
      (fun n m hn hm => ⟨by omega, hn.2.add hm.2⟩) (fun n m hn _ => squeezeAny_append cu m hn) n ns h
  · exact foldl_inputChunks (whole := fun X => crypt d X dir cu)
      (fun X Y => crypt_append cu) X Ys h

end Sys2Proof.Machine

/-! PROOFS. The opcode table: each row's mask and pattern fix the opcode and the reserved bits of a format,
so the rows are the legal words (R82 to R88). -/

namespace Sys2Proof

/-! ### Masks -/

/-- A field is 0 when each of its bits is. -/
theorem extractLsb'_eq_zero_iff {w : Word} {start len : Nat} :
    w.extractLsb' start len = 0 ↔ ∀ j, start ≤ j → j < start + len → w.getLsbD j = false := by
  refine ⟨fun h j => reserved_bit h, fun h => BitVec.eq_of_getLsbD_eq fun j hj => ?_⟩
  rw [BitVec.getLsbD_extractLsb', h _ (by omega) (by omega), Bool.and_false]
  exact BitVec.getLsbD_zero.symm

/-- A mask over the opcode byte and other bits, against a pattern with only an opcode: the bits are compared
below 8, and are 0 from 8 up. -/
theorem and_mask_eq_encodeN_iff {w m : Word} {opc : Byte} (hm : ∀ j < 8, m.getLsbD j = true) :
    w &&& m = encodeN opc ↔
      opcOf w = opc ∧ ∀ j, 8 ≤ j → j < 32 → m.getLsbD j = true → w.getLsbD j = false := by
  rw [BitVec.eq_of_getLsbD_eq_iff, BitVec.eq_of_getLsbD_eq_iff]
  simp only [opcOf, encodeN, BitVec.getLsbD_and, BitVec.getLsbD_setWidth,
    BitVec.getLsbD_extractLsb', Nat.zero_add]
  have hhigh (j : Nat) (h : 8 ≤ j) : opc.getLsbD j = false := opc_bit opc h
  grind

/-- The fixed bits of a format N row (R82). -/
theorem and_maskN_iff {w : Word} {opc : Byte} :
    w &&& 0xFFFFFFFF = encodeN opc ↔ opcOf w = opc ∧ w.extractLsb' 8 24 = 0 := by
  have hm : ∀ j < 32, (0xFFFFFFFF : Word).getLsbD j = true := by decide
  rw [and_mask_eq_encodeN_iff (by decide), extractLsb'_eq_zero_iff]
  grind

/-- The fixed bits of a format L row (R83). -/
theorem and_maskL_iff {w : Word} {opc : Byte} :
    w &&& 0x0000FEFF = encodeN opc ↔ opcOf w = opc ∧ w.extractLsb' 9 7 = 0 := by
  have hm : ∀ j < 32, 8 ≤ j →
      ((0x0000FEFF : Word).getLsbD j = true ↔ 9 ≤ j ∧ j < 9 + 7) := by decide
  rw [and_mask_eq_encodeN_iff (by decide), extractLsb'_eq_zero_iff]
  grind

/-- The fixed bits of a format K row (R84). -/
theorem and_maskK_iff {w : Word} {opc : Byte} :
    w &&& 0x00C0C0FF = encodeN opc ↔
      opcOf w = opc ∧ w.extractLsb' 14 2 = 0 ∧ w.extractLsb' 22 2 = 0 := by
  have hm : ∀ j < 32, 8 ≤ j →
      ((0x00C0C0FF : Word).getLsbD j = true ↔ 14 ≤ j ∧ j < 14 + 2 ∨ 22 ≤ j ∧ j < 22 + 2) := by
    decide
  rw [and_mask_eq_encodeN_iff (by decide), extractLsb'_eq_zero_iff, extractLsb'_eq_zero_iff]
  grind

/-! ### The rows -/

/-- The rows, each with the opcode it fixes (R85). -/
theorem opcodeTable_eq : opcodeTable =
    [⟨0xFFFFFFFF, encodeN 0x01#8, false⟩, ⟨0x00C0C0FF, encodeN 0x02#8, false⟩,
     ⟨0x0000FEFF, encodeN 0x03#8, false⟩, ⟨0x0000FEFF, encodeN 0x04#8, false⟩,
     ⟨0x0000FEFF, encodeN 0x05#8, false⟩, ⟨0x0000FEFF, encodeN 0x06#8, false⟩,
     ⟨0x0000FEFF, encodeN 0x07#8, false⟩, ⟨0xFFFFFFFF, encodeN 0x08#8, false⟩,
     ⟨0xFFFFFFFF, encodeN 0x10#8, true⟩, ⟨0xFFFFFFFF, encodeN 0x11#8, true⟩,
     ⟨0xFFFFFFFF, encodeN 0x12#8, true⟩] := by decide

theorem covers_iff {r : TableRow} {port : CtxPort} {w : Word} :
    r.covers port w = true ↔
      w &&& r.mask = r.pattern ∧ (r.needsCtxPort = true → port = .present) := by
  cases h : r.needsCtxPort <;> simp [TableRow.covers, h]

/-- A word is covered by the table when its opcode has a row and the reserved bits of the row's format
are 0; a row of the context port needs the port (R82 to R85, R89). -/
theorem covered_iff {port : CtxPort} {w : Word} :
    (∃ r ∈ opcodeTable, r.covers port w = true) ↔
      (opcOf w = 0x01#8 ∧ w.extractLsb' 8 24 = 0) ∨
      (opcOf w = 0x02#8 ∧ w.extractLsb' 14 2 = 0 ∧ w.extractLsb' 22 2 = 0) ∨
      (opcOf w = 0x03#8 ∧ w.extractLsb' 9 7 = 0) ∨ (opcOf w = 0x04#8 ∧ w.extractLsb' 9 7 = 0) ∨
      (opcOf w = 0x05#8 ∧ w.extractLsb' 9 7 = 0) ∨ (opcOf w = 0x06#8 ∧ w.extractLsb' 9 7 = 0) ∨
      (opcOf w = 0x07#8 ∧ w.extractLsb' 9 7 = 0) ∨ (opcOf w = 0x08#8 ∧ w.extractLsb' 8 24 = 0) ∨
      ((opcOf w = 0x10#8 ∧ w.extractLsb' 8 24 = 0) ∧ port = .present) ∨
      ((opcOf w = 0x11#8 ∧ w.extractLsb' 8 24 = 0) ∧ port = .present) ∨
      ((opcOf w = 0x12#8 ∧ w.extractLsb' 8 24 = 0) ∧ port = .present) := by
  simp only [opcodeTable_eq, List.exists_mem_cons_iff, covers_iff, and_maskN_iff, and_maskL_iff,
    and_maskK_iff, List.not_mem_nil, false_and, exists_false, or_false, Bool.false_eq_true,
    false_implies, and_true, forall_const]

/-- A word is a command exactly when the table covers it: its opcode picks one branch of the decoder, which
asks what the row asks (R88). -/
theorem isCommand_iff_covered {port : CtxPort} {w : Word} :
    (∃ i, decode port w = .command i) ↔ ∃ r ∈ opcodeTable, r.covers port w = true := by
  rw [covered_iff]
  constructor
  · rintro ⟨i, h⟩
    obtain ⟨hopc, hformat⟩ := decode_cases h
    rw [hopc]
    rcases hformat with ⟨hN, rfl | rfl⟩ | ⟨hN, rfl, rfl | rfl | rfl⟩ |
      ⟨hL, rfl | rfl | rfl | rfl | rfl⟩ | ⟨hK, hK', rfl⟩ <;> simp [*, Instr.opcode]
  · rintro (⟨hopc, h⟩ | ⟨hopc, h⟩ | ⟨hopc, h⟩ | ⟨hopc, h⟩ | ⟨hopc, h⟩ | ⟨hopc, h⟩ | ⟨hopc, h⟩ |
      ⟨hopc, h⟩ | ⟨⟨hopc, h⟩, rfl⟩ | ⟨⟨hopc, h⟩, rfl⟩ | ⟨⟨hopc, h⟩, rfl⟩) <;>
      simp [decode, decodeN, decodeK, decodeL, decodeCtx, hopc, h]

/-- Two rows that cover one word are one row: their opcodes differ otherwise (R85). -/
theorem row_unique {port : CtxPort} {w : Word} {r r' : TableRow} (hr : r ∈ opcodeTable)
    (hr' : r' ∈ opcodeTable) (hc : r.covers port w = true) (hc' : r'.covers port w = true) :
    r = r' := by
  have hmask : ∀ r ∈ opcodeTable, r.mask &&& 0xFF = 0xFF := by decide
  have hopc : ∀ r ∈ opcodeTable, ∀ r' ∈ opcodeTable,
      r.pattern &&& 0xFF = r'.pattern &&& 0xFF → r = r' := by decide
  have hpat {r : TableRow} (hr : r ∈ opcodeTable) (hc : r.covers port w = true) :
      r.pattern &&& 0xFF = w &&& 0xFF := by
    rw [← (covers_iff.1 hc).1, BitVec.and_assoc, hmask r hr]
  exact hopc r hr r' hr' ((hpat hr hc).trans (hpat hr' hc').symm)

end Sys2Proof

namespace Sys2Proof.Machine

/-- A step whose event writes a register, in a full or a narrow write, is that write (R52, R53). -/
theorem step_of_written {s : State} {r : Reg} {v : Word} (h : s.written = some (r, v)) :
    ∃ n off, regOf off = r ∧ step s = regWrite off v (s.popped n) := by
  unfold State.written at h
  split at h
  next addr u rest hp =>
    obtain ⟨off, ho, hreg⟩ := Option.map_eq_some_iff.1 h
    cases hreg
    exact ⟨s.fresh, off, rfl, by simp [step, hp, event, ho, State.popped]⟩
  next addr u driven rest hp =>
    obtain ⟨off, ho, hreg⟩ := Option.map_eq_some_iff.1 h
    cases hreg
    exact ⟨s.fresh + 4, off, rfl, by simp [step, hp, event, ho, State.popped]⟩
  all_goals cases h

/-- Settles O4: the rows are the legal words, the mask of every row holds the opcode byte, and an illegal
word is a fault entry. -/
theorem legalWordsAreTheTableRows : Obligations.LegalWordsAreTheTableRows := by
  refine ⟨fun port w => ?_, fun port => ⟨.unlistedOpcode, rfl⟩, fun s w why hc hw hd => ?_⟩
  · rw [isCommand_iff_covered]
    exact ⟨fun h => existsUnique_of_exists_of_unique h
      fun r r' hr hr' => row_unique hr.1 hr'.1 hr.2 hr'.2, ExistsUnique.exists⟩
  · obtain ⟨n, off, hreg, hstep⟩ := step_of_written hw
    refine ⟨(s.popped n).raise .illegalCmd w, ?_, rfl, rfl, rfl⟩
    rw [hstep, regWrite, hreg]
    exact cmdWrite_of_illegal (s := s.popped n) hc hd

end Sys2Proof.Machine

/-! PROOFS. The steps of the permutation (R115 to R118), its two vectors (R122, R124), and PERMUTE (R125). -/

namespace Sys2Proof.Machine

/-! ### χ (R115, R116) -/

/-- The update of a lane of χ does not see that the lane it takes unnegated was updated before: the change
is masked by the lane it takes negated. -/
theorem chiLane_of_updated (x y z : Lane) :
    y ^^^ (~~~z &&& (x ^^^ (~~~y &&& z))) = y ^^^ (~~~z &&& x) := by
  ext j
  simp only [BitVec.getElem_xor, BitVec.getElem_and, BitVec.getElem_not]
  cases x[j] <;> cases y[j] <;> cases z[j] <;> rfl

/-- Nor does it see that the lane it takes negated was updated before: that change is masked by the lane it
takes unnegated. -/
theorem chiLane_of_updated_not (x y z : Lane) :
    z ^^^ (~~~(x ^^^ (~~~y &&& z)) &&& y) = z ^^^ (~~~x &&& y) := by
  ext j
  simp only [BitVec.getElem_xor, BitVec.getElem_and, BitVec.getElem_not]
  cases x[j] <;> cases y[j] <;> cases z[j] <;> rfl

/-- Nor that both were: the unnegated lane would be the same had it been updated after the negated one. -/
theorem chiLane_of_both_updated (x y z : Lane) :
    z ^^^ (~~~(x ^^^ (~~~y &&& z)) &&& (y ^^^ (~~~z &&& x))) = z ^^^ (~~~x &&& y) := by
  rw [← chiLane_of_updated x y z, chiLane_of_updated y z, chiLane_of_updated_not]

/-- Settles O47: no update sees an earlier one, so each gives its plane of the parallel form. -/
theorem chiIsItsParallelFormInEveryOrder : Obligations.ChiIsItsParallelFormInEveryOrder := by
  intro p
  refine ⟨?_, ?_, ?_, ?_, ?_, ?_, ?_⟩ <;>
    simp only [chi, chiA, chiB, chiC, chiParallel, getElem_tab, chiLane_of_updated,
      chiLane_of_updated_not, chiLane_of_both_updated]

/-! ### ρ-east on plane C (R117, R118) -/

/-- Byte `k` of lane `j` stands at index `4 j + k` of the plane (R21). -/
theorem getElem?_planeBytes (p : Plane) (j : Fin 4) {k : Nat} (hk : k < 4) :
    (planeBytes p)[4 * j + k]? = some (p[j].extractLsb' (8 * k) 8) := by
  fin_cases j <;> interval_cases k <;> rfl

/-- Rotating a lane left by 8 moves each of its bytes up by one place. -/
theorem extractLsb'_rotl_8 (w : Lane) {k : Nat} (hk : k < 4) :
    (rotl w 8).extractLsb' (8 * k) 8 = w.extractLsb' (8 * ((k + 3) % 4)) 8 := by
  apply BitVec.eq_of_getLsbD_eq
  intro j hj
  simp only [rotl, BitVec.getLsbD_extractLsb', BitVec.getLsbD_or, BitVec.getLsbD_shiftLeft,
    BitVec.getLsbD_ushiftRight, hj]
  interval_cases k <;> grind

/-- The entries of the byte table (R118). -/
theorem getElem?_rhoEastTable {j k : Nat} (hj : j < 4) (hk : k < 4) :
    rhoEastTable[4 * j + k]? = some (4 * ((j + 2) % 4) + (k + 3) % 4) := by
  interval_cases j <;> interval_cases k <;> rfl

/-- Byte `k` of lane `j` of C after ρ-east (R118). -/
theorem planeBytes_rhoEast_C (p : Planes) (j : Fin 4) {k : Nat} (hk : k < 4) :
    (planeBytes (rhoEast p).C)[4 * j + k]? =
      (planeBytes p.C)[4 * ((j + 2) % 4) + (k + 3) % 4]? := by
  have hj : ((j - 2 : Fin 4) : Nat) = (j + 2) % 4 := by revert j; decide
  rw [← hj, getElem?_planeBytes _ _ hk, getElem?_planeBytes _ _ (Nat.mod_lt _ (by decide)), rhoEast,
    getElem_tab, extractLsb'_rotl_8 _ hk]

/-- Settles O48: an index of the table is a lane and a byte of it. -/
theorem rhoEastIsTheByteTable : Obligations.RhoEastIsTheByteTable := by
  refine ⟨rfl, fun j k hj hk => getElem?_rhoEastTable hj hk, fun p i t ht => ?_⟩
  have hi : i < 16 := (List.getElem?_eq_some_iff.1 ht).1
  have hj : i / 4 < 4 := by omega
  have hk : i % 4 < 4 := by omega
  rw [← Nat.div_add_mod i 4, getElem?_rhoEastTable hj hk] at ht
  rw [← Nat.div_add_mod i 4, planeBytes_rhoEast_C p ⟨i / 4, hj⟩ hk, Option.some.inj ht]

/-! ### PERMUTE (R125) -/

/-- Settles O17: PERMUTE has no output, so its execution completes it. -/
theorem permuteAppliesThePermutation : Obligations.PermuteAppliesThePermutation := by
  rintro s ⟨hctl, hexecuted, hinBuf, hinNeed, houtLeft⟩
  have htxn : transaction .permute s.session s.run.inBuf =
      .done { s.session with S := permute s.session.S } [] := rfl
  rw [exec_of_run .permute hctl,
    execute_done_nil hctl hexecuted (hinBuf.trans hinNeed.symm) houtLeft htxn]

/-! ### The vectors (R122, R124) -/

/-- Settles O49: the round is evaluated step by step, as in R124. -/
theorem oneRoundFromZero : Obligations.OneRoundFromZero := by
  unfold Obligations.OneRoundFromZero
  intro z a
  have htheta : theta z = z := by decide
  have hrhoWest : rhoWest z = z := by decide
  have hiota : iota 0x58 z = a := by decide
  have hchi : chi a =
      { A := #v[0x58, 0, 0, 0], B := #v[0x58, 0, 0, 0], C := #v[0, 0, 0, 0] } := by decide
  refine ⟨htheta, hrhoWest, hiota, hchi, ?_⟩
  rw [permRound, htheta, hrhoWest, hiota, hchi]
  decide

/-- Permuting the bytes is permuting the planes (R120). -/
theorem planesOf_permuteTimes (n : Nat) (S : StateBytes) :
    planesOf (permuteTimes n S) = permutePlanesTimes n (planesOf S) := by
  induction n generalizing S with
  | zero => rfl
  | succ n ih =>
    obtain ⟨-, -, planesOf_bytesOf⟩ := planesAndBytesAgree
    rw [permuteTimes, permutePlanesTimes, ih, permute, planesOf_bytesOf]

/-- The planes with the given lanes. -/
def planesOfNats : LaneFun Planes :=
  fun a0 a1 a2 a3 b0 b1 b2 b3 c0 c1 c2 c3 =>
    { A := #v[.ofNat 32 a0, .ofNat 32 a1, .ofNat 32 a2, .ofNat 32 a3]
      B := #v[.ofNat 32 b0, .ofNat 32 b1, .ofNat 32 b2, .ofNat 32 b3]
      C := #v[.ofNat 32 c0, .ofNat 32 c1, .ofNat 32 c2, .ofNat 32 c3] }

theorem onLanes_planesOfNats (p : Planes) : onLanes planesOfNats p = p := by
  simp only [onLanes, planesOfNats, BitVec.ofNat_toNat, BitVec.setWidth_eq]
  exact congr (congr (congrArg Planes.mk (tab_getElem p.A)) (tab_getElem p.B)) (tab_getElem p.C)

/-- Settles O50: the permutations are evaluated on natural numbers. -/
theorem permutationConformanceVector : Obligations.PermutationConformanceVector := by
  unfold Obligations.PermutationConformanceVector
  rw [planesOf_permuteTimes, ← onLanes_planesOfNats (permutePlanesTimes 384 _),
    ← onLanes_natPermuteTimes]
  decide +kernel

end Sys2Proof.Machine

/-! PROOFS. The duplex primitives: Down and Up byte by byte (R140, R142), the blocks of Split (R145), and
what Crypt leaves and how it is inverted (R148, R149). -/

namespace Sys2Proof.Machine

variable {d : Session} {X Y : List Byte} {r : Nat}

/-! ### Down and Up -/

/-- Byte `i` after a Down: the block, the padding behind it, and the flag in the last byte (R140). -/
theorem byteAt_down (cd : Flag) (hX : X.length ≤ 44) {i : Nat} (hi : i < 48) :
    byteAt (d.down X cd).S i =
      byteAt d.S i ^^^
        (if i < X.length then X[i]?.getD 0
         else if i = X.length then 0x01
         else if i = 47 then cd.inDown d.mode
         else 0) := by
  simp only [Session.down, byteAt_xorAt _ _ _ _ hi, byteAt_xorBlock _ _ _ _ hi, Nat.zero_le, if_true,
    Nat.sub_zero]
  rcases Nat.lt_trichotomy i X.length with hlt | rfl | hgt
  · have hpad : X.length ≠ i := by omega
    have hflag : 47 ≠ i := by omega
    simp [hlt, hpad, hflag]
  · have hflag : 47 ≠ X.length := by omega
    simp [hflag]
  · have hin : ¬ i < X.length := by omega
    have hpad : X.length ≠ i := by omega
    by_cases hflag : i = 47
    · subst hflag
      simp [hin, hpad, hpad.symm]
    · simp [hin, hpad, hpad.symm, hflag, Ne.symm hflag]

/-- Settles O38: `byteAt_down` with each flag's value (R95, R96). -/
theorem downXorsBlockPaddingAndFlag : Obligations.DownXorsBlockPaddingAndFlag := by
  refine fun d X cd hX => ⟨rfl, rfl, fun i hi => ?_⟩
  rw [byteAt_down cd hX hi]
  cases d.mode <;> cases cd <;> rfl

/-- Settles O39: the state that Up permutes has the flag in its last byte in Keyed mode only. -/
theorem upInjectsItsFlagAndPermutes : Obligations.UpInjectsItsFlagAndPermutes := by
  refine fun d cu => ⟨rfl, rfl, ⟨_, rfl, fun i hi => ?_⟩, fun n hn => ?_⟩
  · cases d.mode with
    | hash => simp
    | keyed =>
      simp only [byteAt_xorAt _ _ _ _ hi, and_true]
      by_cases h : i = 47
      · subst h
        cases cu <;> rfl
      · simp [h, Ne.symm h]
  · have h48 : n ≤ 48 := hn.trans (by cases d.mode <;> decide)
    exact ⟨by rw [Session.length_out, Nat.min_eq_left h48],
      fun i hi => Session.getElem?_out _ n i hi (hi.trans_le h48)⟩

/-! ### Split -/

/-- A full block in front of more input is the first block of the split (R145). -/
theorem split_block_append (hr : 1 ≤ r) (hX : X.length = r) (hY : Y ≠ []) :
    split (X ++ Y) r = X :: split Y r := by
  have hpos := List.length_pos_iff.2 hY
  rw [split_of_lt _ _ hr (by rw [List.length_append]; omega), List.take_left' hX, List.drop_left' hX]

/-- Induction over the blocks of an input: a last block, or a full block in front of more (R145). -/
theorem blocks_induction {P : List Byte → Prop} (hr : 1 ≤ r) (last : ∀ X, X.length ≤ r → P X)
    (more : ∀ X Y, X.length = r → Y ≠ [] → P Y → P (X ++ Y)) (X : List Byte) : P X := by
  induction hn : X.length using Nat.strong_induction_on generalizing X with
  | _ n ih =>
    by_cases h : X.length ≤ r
    · exact last X h
    · have hlt : (X.drop r).length < n := by rw [List.length_drop]; omega
      rw [← List.take_append_drop r X]
      refine more _ _ (List.length_take_of_le (by omega)) ?_ (ih _ hlt _ rfl)
      exact List.ne_nil_of_length_pos (by rw [List.length_drop]; omega)

theorem length_of_mem_dropLast_split (hr : 1 ≤ r) (X : List Byte) :
    ∀ b ∈ (split X r).dropLast, b.length = r := by
  induction X using blocks_induction hr with
  | last X h => rw [split_of_le X r hr h]; simp
  | more X Y hX hY ih =>
    rw [split_block_append hr hX hY, List.dropLast_cons_of_ne_nil (split_ne_nil Y r)]
    exact List.forall_mem_cons.2 ⟨hX, ih⟩

theorem pos_length_of_mem_split (hr : 1 ≤ r) (X : List Byte) :
    X ≠ [] → ∀ b ∈ split X r, 1 ≤ b.length := by
  induction X using blocks_induction hr with
  | last X h =>
    intro hne
    rw [split_of_le X r hr h]
    simpa [Nat.one_le_iff_ne_zero] using hne
  | more X Y hX hY ih =>
    intro _
    rw [split_block_append hr hX hY]
    exact List.forall_mem_cons.2 ⟨hX.symm ▸ hr, ih hY⟩

/-- Settles O40: the count and each block from the definition, the sizes by induction over the blocks. -/
theorem splitCutsAtTheRate : Obligations.SplitCutsAtTheRate := by
  refine fun X r hr => ⟨by simp [split], fun k hk => ?_, flatten_split X r hr,
    split_of_le [] r hr (Nat.zero_le r), length_of_mem_dropLast_split hr X,
    fun hX b hb => ⟨pos_length_of_mem_split hr X hX b hb, length_le_of_mem_split hb⟩⟩
  have hblock : (split X r)[k]? = some ((X.drop (k * r)).take r) := by
    rw [split, List.getElem?_map, List.getElem?_range (by simpa [split] using hk)]
    rfl
  rw [hblock, Option.some_inj, List.take_eq_take_iff, List.length_drop, Nat.succ_mul]
  omega

/-! ### Crypt -/

/-- Crypt of a single block (R148). -/
theorem crypt_of_le (dir : Direction) (cu : Flag) (hX : X.length ≤ cryptRate) :
    crypt d X dir cu =
      ((d.up cu).down (plaintextBlock dir X (xorBytes X ((d.up cu).out X.length))) .zero,
        xorBytes X ((d.up cu).out X.length)) := by
  rw [crypt, split_of_le X cryptRate (by decide) hX, cryptBlocks_cons]
  simp [cryptBlocks]

/-- XORing the keystream of a block twice gives the block back (R149). -/
theorem xorBytes_out_xorBytes_out (hX : X.length ≤ 48) :
    xorBytes (xorBytes X (d.out X.length)) (d.out X.length) = X :=
  xorBytes_xorBytes _ _ (by rw [Session.length_out]; omega)

theorem length_xorBytes_out (hX : X.length ≤ 48) : (xorBytes X (d.out X.length)).length = X.length := by
  rw [length_xorBytes, Session.length_out]
  omega

/-- Decrypting a block that encrypting gave: both directions absorb the plaintext block (R148, R149). -/
theorem crypt_decrypt_encrypt_of_le (cu : Flag) (hX : X.length ≤ cryptRate) :
    crypt d (crypt d X .encrypt cu).2 .decrypt cu = ((crypt d X .encrypt cu).1, X) := by
  have h48 : X.length ≤ 48 := hX.trans (by decide)
  have hlen := length_xorBytes_out (d := d.up cu) h48
  rw [crypt_of_le .encrypt cu hX, crypt_of_le .decrypt cu (hlen.trans_le hX), hlen,
    xorBytes_out_xorBytes_out h48]
  rfl

/-- Settles O43: by induction over the blocks; after each block both directions are in one session. -/
theorem decryptInvertsEncrypt : Obligations.DecryptInvertsEncrypt := by
  intro d I cu
  induction I using blocks_induction (r := cryptRate) (by decide) generalizing d cu with
  | last X hX => exact crypt_decrypt_encrypt_of_le cu hX
  | more X Y hX hY ih =>
    have hwhole {Z : List Byte} (hZ : Z.length = cryptRate) : Z ≠ [] ∧ cryptRate ∣ Z.length :=
      ⟨List.ne_nil_of_length_pos (hZ ▸ by decide), hZ ▸ dvd_rfl⟩
    have hfirst := crypt_decrypt_encrypt_of_le (d := d) cu hX.le
    have hrest := ih (crypt d X .encrypt cu).1 .zero
    have hne : (crypt (crypt d X .encrypt cu).1 Y .encrypt .zero).2 ≠ [] :=
      List.ne_nil_of_length_pos (by rw [length_crypt]; exact List.length_pos_iff.2 hY)
    rw [← crypt_append cu (hwhole hX) hY, ← crypt_append cu (hwhole (by rw [length_crypt, hX])) hne,
      hfirst, hrest]

/-- Crypt ends with its last block, from the session and with the flag that the blocks before left. -/
theorem exists_crypt_last {last : List Byte} (dir : Direction) (cu : Flag)
    (hlast : (split X cryptRate).getLast? = some last) : ∃ e f O,
      crypt d X dir cu = ((crypt e last dir f).1, O ++ (crypt e last dir f).2) := by
  have hle : last.length ≤ cryptRate := length_le_of_mem_split (List.mem_of_getLast? hlast)
  have hone : ∀ e f, cryptBlocks dir e f [last] = crypt e last dir f := fun e f => by
    rw [crypt, split_of_le last cryptRate (by decide) hle]
  rw [crypt, ← List.dropLast_append_getLast? last hlast]
  by_cases hfront : (split X cryptRate).dropLast = []
  · exact ⟨d, cu, [], by rw [hfront, List.nil_append, hone]; rfl⟩
  · exact ⟨_, _, _, by rw [cryptBlocks_append _ _ _ _ _ hfront, hone]⟩

/-- Encrypting a block leaves its output in the state (R148, C1). -/
theorem out_crypt_encrypt_of_le (cu : Flag) (hX : X.length ≤ cryptRate) :
    (crypt d X .encrypt cu).1.out X.length = (crypt d X .encrypt cu).2 := by
  rw [crypt_of_le .encrypt cu hX]
  exact out_down _ X .zero (hX.trans (by decide))

/-- Decrypting a block leaves its input in the state (R148, R196, C1). -/
theorem out_crypt_decrypt_of_le (cu : Flag) (hX : X.length ≤ cryptRate) :
    (crypt d X .decrypt cu).1.out X.length = X := by
  have h48 : X.length ≤ 48 := hX.trans (by decide)
  have hlen := length_xorBytes_out (d := d.up cu) h48
  have hout := out_down (d.up cu) (xorBytes X ((d.up cu).out X.length)) .zero
    (hlen.trans_le (hX.trans (by decide)))
  rw [hlen, xorBytes_out_xorBytes_out h48] at hout
  rw [crypt_of_le .decrypt cu hX]
  exact hout

/-- Settles O44: the last block decides, and a Down of its plaintext leaves its ciphertext (`out_down`). -/
theorem cryptLeavesTheCiphertextInTheState : Obligations.CryptLeavesTheCiphertextInTheState := by
  intro d I cu last hlast
  have hle : last.length ≤ cryptRate := length_le_of_mem_split (List.mem_of_getLast? hlast)
  constructor
  · obtain ⟨e, f, O, hcrypt⟩ := exists_crypt_last (d := d) .encrypt cu hlast
    have hfront : I.length - last.length = O.length := by
      have hlen := length_crypt d I .encrypt cu
      rw [hcrypt, List.length_append, length_crypt] at hlen
      omega
    rw [hcrypt, hfront, List.drop_left]
    exact out_crypt_encrypt_of_le f hle
  · obtain ⟨e, f, O, hcrypt⟩ := exists_crypt_last (d := d) .decrypt cu hlast
    rw [hcrypt]
    exact out_crypt_decrypt_of_le f hle

end Sys2Proof.Machine

/-! PROOFS. The session commands: INIT_HASH, ABSORB and the squeezes (R170 to R174, R193), and what writes
MODE (R171). -/

namespace Sys2Proof.Machine

variable {s t : State} {i : Instr} {d d' : Session} {I O : List Byte}

/-! ### Execution -/

/-- A command that is due and whose transaction succeeds completes if it has no output; otherwise its
output is to be read (R64, R65). -/
theorem exec_of_readyFor (h : s.ReadyFor i) (ht : transaction i s.session s.run.inBuf = .done d O) :
    exec i s = .next (if outLen i = 0 then { s with session := d, ctl := .idle, run := RunRecord.empty }
      else s.executed d O) := by
  obtain ⟨hctl, hexecuted, hinBuf, hinNeed, houtLeft⟩ := h
  have hinput : s.run.inBuf.length = s.run.inNeed := hinBuf.trans hinNeed.symm
  rw [exec_of_run i hctl]
  split
  · next hnone => rw [execute_done_nil hctl hexecuted hinput (houtLeft.trans hnone) ht]
  · next hsome =>
    rw [execute_done_left hexecuted hinput (houtLeft.trans_ne hsome) ht]
    rfl

/-! ### INIT_HASH, ABSORB, SQUEEZE and SQUEEZE_KEY -/

/-- Settles O11: INIT_HASH has no output, so its execution completes it. -/
theorem initHashStartsAHashSession : Obligations.InitHashStartsAHashSession := by
  intro s h
  have htxn : transaction .initHash s.session s.run.inBuf =
      .done { S := zeroBytes, mode := .hash, phase := .up } [] := rfl
  exact exec_of_readyFor h htxn

/-- Settles O13: ABSORB has no output; AbsorbAny takes the blocks of `split_of_le` and `split_of_lt` one by
one (`absorbBlocks_cons`). -/
theorem absorbAbsorbsTheInput : Obligations.AbsorbAbsorbsTheInput := by
  refine ⟨fun len cont s h => ?_, fun d X r cd hr => ⟨fun hle => ?_, fun hlt => ?_⟩⟩
  · have htxn : transaction (.absorb len cont) s.session s.run.inBuf =
        .done (absorbAny s.session s.run.inBuf (absorbRate s.session.mode)
          (if cont then .zero else .absorb)) [] := rfl
    exact exec_of_readyFor h htxn
  · rw [absorbAny, split_of_le X r hr hle]
    exact absorbBlocks_cons d cd X []
  · rw [absorbAny, split_of_lt X r hr hlt]
    exact absorbBlocks_cons d cd _ _

/-- Settles O14: OutLen is `len`; the blocks are those of `squeezeAny_eq` and `squeezeCont_step`, at the
squeezeRate of the mode. -/
theorem squeezeAndSqueezeKeyGiveTheirBytes : Obligations.SqueezeAndSqueezeKeyGiveTheirBytes := by
  refine ⟨fun len cont s i f hi h => ?_, fun d n cu => ⟨?_, ?_, ?_⟩⟩
  · obtain ⟨rfl, rfl⟩ | ⟨rfl, rfl⟩ := hi
    · exact exec_of_readyFor (i := .squeeze len cont) h rfl
    · exact exec_of_readyFor (i := .squeezeKey len cont) h rfl
  · exact squeezeAny_eq d n cu
  · exact squeezeCont_zero d
  · exact squeezeCont_step d n

/-! ### MODE (R22, R171) -/

/-- The commands that write MODE. -/
def WritesMode (i : Instr) : Prop :=
  i = .initHash ∨ (∃ klen idlen clen, i = .initKeyed klen idlen clen) ∨ i = .ctxRestore

/-- A transaction that changes MODE is of a command that writes it (R40). -/
theorem writesMode_of_transaction (h : transaction i d I = .done d' O) (hne : d'.mode ≠ d.mode) :
    WritesMode i := by
  have hmp := modeAndPhaseAfterEachCommand i d d' I O h
  cases i with
  | initHash => exact .inl rfl
  | initKeyed klen idlen clen => exact .inr (.inl ⟨klen, idlen, clen, rfl⟩)
  | ctxRestore => exact .inr (.inr rfl)
  | ctxSave => exact absurd (congrArg Session.mode hmp) hne
  | absorb | squeeze | squeezeKey | encrypt | decrypt | ratchet | permute => exact absurd hmp.1 hne

/-- A command writes the session, and MODE in it, by its transaction only (R57, R64). -/
theorem writesMode_of_exec (hx : exec i s = .next t) (hne : t.session.mode ≠ s.session.mode) :
    WritesMode i := by
  cases exec_inv hx with
  | nothing | turnedAway | accepted | badImage => exact absurd rfl hne
  | applied s0 d O h0 ht =>
    rw [completeIfDone_session] at hne
    exact writesMode_of_transaction ht hne

/-- Settles O56: of the ways a step can go, only a reset and the three executions write MODE, and the word
of the executing command is CUR or the word written to CMD (`encode_of_decode`). -/
theorem onlySessionCommandsWriteMode : Obligations.OnlySessionCommandsWriteMode := by
  intro s t hst hne
  cases step_cases hst with
  | readQuiet | quiet | cmdBusy | cmdIllegal | dinBad | dinTake | engineMove | doutBad =>
    exact absurd rfl hne
  | doutTake => exact absurd (congrArg Session.mode (completeIfDone_session _)) hne
  | reset n h => exact .inl h
  | present n w i _ hw hc hd hx =>
    obtain rfl := encode_of_decode hd
    exact .inr ⟨i, writesMode_of_exec hx hne, .inr ⟨hc, hw⟩⟩
  | dinExec n v i _ hw hc hf hi hl hd hx =>
    exact .inr ⟨i, writesMode_of_exec hx hne, .inl ⟨hc, (encode_of_decode hd).symm⟩⟩
  | engineExec n i _ hp hw hr hc hi he hd hx =>
    exact .inr ⟨i, writesMode_of_exec hx hne, .inl ⟨hc, (encode_of_decode hd).symm⟩⟩

end Sys2Proof.Machine

/-! PROOFS. The keyed commands: INIT_KEYED and its key lengths, ENCRYPT and DECRYPT, RATCHET (R190 to
R199). -/

namespace Sys2Proof.Machine

variable {d : Session} {X : List Byte}

/-! ### INIT_KEYED (R190, R191) -/

/-- INIT_KEYED with a legal key length fails no check of R57 (R190). -/
theorem violation_initKeyed_of_fits (port : CtxPort) (m : Mode) {klen idlen : Nat} (clen : Nat)
    (h : klen ≠ 0 ∧ klen + idlen + 1 ≤ 44) :
    violation port m (.initKeyed klen idlen clen) = none := by
  simp [violation, needsCtxPort, needsKeyed, keyFits, keyLengthOk_iff.2 h]

/-- Settles O52: the legal pairs meet the bound of R190 and leave input to wait for; the others break it. -/
theorem keyLengthLimits : Obligations.KeyLengthLimits := by
  refine fun klen idlen clen s hc => ⟨fun hlegal => ?_, fun hbad => ?_⟩
  · have hfits : klen ≠ 0 ∧ klen + idlen + 1 ≤ 44 := by omega
    have hinput : inLen (.initKeyed klen idlen clen) ≠ 0 := by
      rw [inLen]
      omega
    exact exec_of_accept_waiting hc (violation_initKeyed_of_fits _ _ clen hfits) (.inl hinput)
  · exact exec_of_violation hc (violation_initKeyed _ _ clen (by omega))

/-- Settles O12: key, id and counter are the input cut at KLEN and at KLEN + IDLEN; the counter is empty
exactly when CLEN is 0. -/
theorem initKeyedAbsorbsKeyIdAndCounter : Obligations.InitKeyedAbsorbsKeyIdAndCounter := by
  intro klen idlen clen s h
  have ⟨_, _, (hlen : s.run.inBuf.length = klen + idlen + clen), _, _⟩ := h
  have hcounter : (counterBytes klen idlen s.run.inBuf).length = clen := by
    rw [counterBytes, List.length_drop]
    omega
  have hempty : counterBytes klen idlen s.run.inBuf = [] ↔ ¬ 0 < clen := by
    rw [← List.length_eq_zero_iff, hcounter]
    omega
  refine ⟨s.run.inBuf.take klen, (s.run.inBuf.drop klen).take idlen,
    counterBytes klen idlen s.run.inBuf, ?_, ?_, ?_, hcounter, ?_⟩
  · rw [counterBytes, ← List.drop_drop, List.append_assoc, List.take_append_drop,
      List.take_append_drop]
  · rw [List.length_take]
    omega
  · rw [List.length_take, List.length_drop]
    omega
  · simp only [hempty, ite_not]
    exact exec_of_readyFor h rfl

/-! ### ENCRYPT and DECRYPT (R148, R195, R197) -/

/-- Crypt of more than one block: the first 24 bytes, then Crypt of the rest with flag Zero (R148). -/
theorem crypt_of_lt (dir : Direction) (cu : Flag) (hX : cryptRate < X.length) :
    crypt d X dir cu =
      let first := crypt d (X.take cryptRate) dir cu
      ((crypt first.1 (X.drop cryptRate) dir .zero).1,
        first.2 ++ (crypt first.1 (X.drop cryptRate) dir .zero).2) := by
  rw [crypt_of_le (X := X.take cryptRate) dir cu (List.length_take_le _ _), crypt,
    split_of_lt X cryptRate (by decide) hX]
  exact cryptBlocks_cons dir d cu _ _

/-- Settles O15: OutLen is `len`; the blocks are those of `crypt_of_le` and `crypt_of_lt`. -/
theorem encryptAndDecryptCryptTheInput : Obligations.EncryptAndDecryptCryptTheInput := by
  refine ⟨fun len cont s i dir hi h => ?_, fun d I dir cu => ?_⟩
  · obtain ⟨rfl, rfl⟩ | ⟨rfl, rfl⟩ := hi
    · exact exec_of_readyFor (i := .encrypt len cont) h rfl
    · exact exec_of_readyFor (i := .decrypt len cont) h rfl
  · have hfirst := crypt_of_le (d := d) dir cu (List.length_take_le 24 I)
    refine ⟨fun hle => ?_, fun hlt => ?_⟩
    · rw [List.take_of_length_le hle] at hfirst ⊢
      exact hfirst
    · exact (crypt_of_lt dir cu hlt).trans (by rw [cryptRate, hfirst]; rfl)

/-! ### RATCHET (R199) -/

/-- Settles O16: RATCHET has no output, so its execution completes it. -/
theorem ratchetFoldsTheState : Obligations.RatchetFoldsTheState := by
  intro s h
  exact exec_of_readyFor h rfl

/-- A squeeze within the rate is one Up (R146). -/
theorem squeezeAny_of_le {n : Nat} (cu : Flag) (h : n ≤ squeezeRate d.mode) :
    squeezeAny d n cu = (d.up cu, (d.up cu).out n) := by
  rw [squeezeAny_eq, Nat.min_eq_left h, Nat.sub_self, squeezeCont_zero, List.append_nil]

/-- An absorb within the rate after an Up is one Down (R144). -/
theorem absorbAny_of_up {r : Nat} (cd : Flag) (hd : d.phase = .up) (hr : 1 ≤ r) (h : X.length ≤ r) :
    absorbAny d X r cd = d.down X cd := by
  rw [absorbAny, split_of_le X r hr h, absorbBlocks_cons, hd]
  rfl

/-- The ratchet is one Up and one Down of the first 16 bytes it leaves (R199). -/
theorem transaction_ratchet (d : Session) (I : List Byte) :
    transaction .ratchet d I =
      .done ((d.up .ratchet).down ((d.up .ratchet).out 16) .zero) [] := by
  have hrate : ratchetLen ≤ squeezeRate d.mode := by cases d.mode <;> decide
  have hlen : ((d.up .ratchet).out ratchetLen).length ≤ keyedAbsorbRate := by
    rw [Session.length_out]
    decide
  rw [transaction, txnRatchet, squeezeAny_of_le .ratchet hrate,
    absorbAny_of_up .zero (Session.up_phase d .ratchet) (by decide) hlen]
  rfl

/-- Flag Zero changes no byte in a Down (R95). -/
@[simp] theorem Flag.inDown_zero (m : Mode) : Flag.zero.inDown m = 0 := by cases m <;> rfl

/-- Settles O45: the Down XORs the first 16 bytes with themselves, and its padding is in byte 16. -/
theorem ratchetZeroesTheFirstBytes : Obligations.RatchetZeroesTheFirstBytes := by
  intro d d' I O h
  rw [transaction_ratchet] at h
  obtain ⟨rfl, -⟩ := TxnResult.done.inj h
  refine ⟨Session.down_phase _ _ _, Session.down_mode _ _ _, fun i hi => ?_⟩
  have hlen : ((d.up .ratchet).out 16).length = 16 := by rw [Session.length_out]; rfl
  rw [byteAt_down .zero (by omega) hi, hlen]
  by_cases hlt : i < 16
  · rw [if_pos hlt, if_pos hlt, Session.getElem?_out _ _ _ hlt hi, Option.getD_some, BitVec.xor_self]
    rfl
  · by_cases hpad : i = 16 <;> simp [hlt, hpad]

end Sys2Proof.Machine

/-! PROOFS. The context commands: the image of a session and the session of an image (R220 to R223). -/

namespace Sys2Proof.Machine

variable {s : State} {i : Instr} {I : List Byte} {c : Byte}

/-! ### The context byte (R221) -/

theorem getLsbD_contextByte_mode (m : Mode) (p : Phase) :
    (contextByte m p).getLsbD 0 = decide (m = .keyed) := by cases m <;> cases p <;> rfl

theorem getLsbD_contextByte_phase (m : Mode) (p : Phase) :
    (contextByte m p).getLsbD 1 = decide (p = .up) := by cases m <;> cases p <;> rfl

theorem contextByte_reserved (m : Mode) (p : Phase) : (contextByte m p).extractLsb' 2 6 = 0 := by
  cases m <;> cases p <;> rfl

/-! ### The image (R221, R222) -/

theorem imageContextByte_of_getElem? (hc : I[48]? = some c) : imageContextByte I = c := by
  rw [imageContextByte, hc, Option.getD_some]

/-- An image that holds 48 bytes or more gives its first 48 to S. -/
theorem toList_imageBytes (hI : 48 ≤ I.length) : (imageBytes I).toList = I.take 48 := by
  have hlen : (I.take 48).length = 48 := List.length_take_of_le hI
  refine List.ext_getElem (by rw [Vector.length_toList, hlen]) fun k hk _ => ?_
  have hkI : k < I.length := by rw [Vector.length_toList] at hk; omega
  simp [imageBytes, hkI]

theorem imageContextByte_contextImage (d : Session) :
    imageContextByte (contextImage d) = contextByte d.mode d.phase := by
  simp [imageContextByte, contextImage]

theorem imageBytes_contextImage (d : Session) : imageBytes (contextImage d) = d.S := by
  have hlen : 48 ≤ (contextImage d).length := by simp [contextImage]
  rw [← Vector.toList_inj, toList_imageBytes hlen, contextImage]
  exact List.take_left' d.S.length_toList

/-! ### The transaction of CTX_RESTORE (R222) -/

theorem transaction_ctxRestore_of_valid (e : Session)
    (h : (imageContextByte I).extractLsb' 2 6 = 0) :
    transaction .ctxRestore e I =
      .done { S := imageBytes I
              mode := if (imageContextByte I).getLsbD 0 then .keyed else .hash
              phase := if (imageContextByte I).getLsbD 1 then .up else .down } [] :=
  if_neg (not_not_intro h)

theorem transaction_ctxRestore_of_invalid (e : Session)
    (h : (imageContextByte I).extractLsb' 2 6 ≠ 0) :
    transaction .ctxRestore e I = .fault .ctxInvalid (zext32 (imageContextByte I)) :=
  if_pos h

/-- A session is its bytes and the two bits of its context byte. -/
theorem transaction_ctxRestore_contextImage (d e : Session) :
    transaction .ctxRestore e (contextImage d) = .done d [] := by
  have hbyte := imageContextByte_contextImage d
  have hmode : (if d.mode = .keyed then Mode.keyed else .hash) = d.mode := by cases d.mode <;> rfl
  have hphase : (if d.phase = .up then Phase.up else .down) = d.phase := by cases d.phase <;> rfl
  rw [transaction_ctxRestore_of_valid e (hbyte ▸ contextByte_reserved d.mode d.phase), hbyte,
    imageBytes_contextImage, getLsbD_contextByte_mode, getLsbD_contextByte_phase]
  simp only [decide_eq_true_eq, hmode, hphase]

/-! ### Execution (R64) -/

/-- A command that is due and whose transaction faults raises that fault and applies nothing. -/
theorem exec_of_readyFor_of_fault {why : Cause} {info : Word} (h : s.ReadyFor i)
    (ht : transaction i s.session s.run.inBuf = .fault why info) :
    exec i s = .next (s.raise why info) := by
  obtain ⟨hctl, hexecuted, hinBuf, hinNeed, -⟩ := h
  rw [exec_of_run i hctl, execute_fault hexecuted (hinBuf.trans hinNeed.symm) ht]

/-- Settles O18: CTX_SAVE has output and leaves the session, so only the record shows that it executed. -/
theorem ctxSaveOutputsTheImage : Obligations.CtxSaveOutputsTheImage := by
  intro s h
  have htxn : transaction .ctxSave s.session s.run.inBuf = .done s.session (contextImage s.session) := rfl
  exact ⟨contextByte s.session.mode s.session.phase, s.executed s.session (contextImage s.session),
    exec_of_readyFor h htxn, rfl, getLsbD_contextByte_mode _ _, getLsbD_contextByte_phase _ _,
    contextByte_reserved _ _⟩

/-- Settles O19: bits 7:2 of the context byte decide between the two results of the transaction. -/
theorem ctxRestoreLoadsTheImage : Obligations.CtxRestoreLoadsTheImage := by
  intro s c h hc
  obtain rfl := imageContextByte_of_getElem? hc
  refine ⟨fun hvalid => ?_, fun hinvalid => ?_⟩
  · have ⟨_, _, hinBuf, _, _⟩ := h
    have hlen : 48 ≤ s.run.inBuf.length := hinBuf ▸ by decide
    exact ⟨imageBytes s.run.inBuf, toList_imageBytes hlen,
      exec_of_readyFor h (transaction_ctxRestore_of_valid s.session hvalid)⟩
  · exact exec_of_readyFor_of_fault h (transaction_ctxRestore_of_invalid s.session hinvalid)

/-- Settles O46: CTX_SAVE's output is the image of the session, which `transaction_ctxRestore_contextImage`
restores. -/
theorem savedContextRestoresTheSession : Obligations.SavedContextRestoresTheSession := by
  intro d d' e I O h
  obtain ⟨rfl, rfl⟩ := TxnResult.done.inj h
  exact ⟨rfl, transaction_ctxRestore_contextImage d e⟩

end Sys2Proof.Machine

/-! PROOFS. FAULT: what enters it and what it records (R241, R242, R250, R251), and reset as its only exit
(R252, R253). -/

namespace Sys2Proof.Machine

variable {s t : State} {i : Instr} {c : Cause} {info w : Word}

/-! ### Into FAULT (R241, R242, R250) -/

/-- A legal word fails the mode check or the key-length check, if any: its port is there (R57, R89). -/
theorem violation_of_decode {port : CtxPort} {m : Mode} (hd : decode port w = .command i)
    (hv : violation port m i = some c) :
    (c = .modeViolation ∧ m = .hash ∧ needsKeyed i = true) ∨
      (c = .keyLength ∧ ∃ klen idlen clen, i = .initKeyed klen idlen clen ∧
        (klen = 0 ∨ 44 < klen + idlen + 1)) := by
  have hport (hn : needsCtxPort i = true) : port = .present :=
    (legalWordsAreEncodings port w i hd).2.2 (needsCtxPort_iff.1 hn)
  unfold violation at hv
  split_ifs at hv with hctx hkeyed hfits
  · rw [Bool.and_eq_true, decide_eq_true_eq] at hctx
    exact absurd (hport hctx.1) (by simp [hctx.2])
  · rw [Bool.and_eq_true, decide_eq_true_eq] at hkeyed
    exact .inl ⟨(Option.some.inj hv).symm, hkeyed.2, hkeyed.1⟩
  · refine .inr ⟨(Option.some.inj hv).symm, ?_⟩
    rw [keyFits_iff] at hfits
    push Not at hfits
    obtain ⟨klen, idlen, clen, hi, hlen⟩ := hfits
    exact ⟨klen, idlen, clen, hi, by omega⟩

/-- A command enters FAULT by a check of R57 in IDLE, or in RUN by an invalid image (R64, R222). -/
theorem exec_enters_fault (hx : exec i s = .next t) (hs : s.ctl ≠ .fault) (ht : t.ctl = .fault) :
    (∃ c, s.ctl = .idle ∧ violation s.params.ctxPort s.session.mode i = some c ∧
      t = s.raise c (encode i)) ∨
    (s.ctl = .run ∧ s.run.inBuf.length = s.run.inNeed ∧ i = .ctxRestore ∧
      (imageContextByte s.run.inBuf).extractLsb' 2 6 ≠ 0 ∧
      t = s.raise .ctxInvalid (zext32 (imageContextByte s.run.inBuf))) := by
  cases exec_inv hx with
  | nothing => exact absurd ht hs
  | turnedAway c hc hv => exact .inl ⟨c, hc, hv, rfl⟩
  | accepted => cases ht
  | badImage hc hlen _ hi hbad => exact .inr ⟨hc, hlen, hi, hbad, rfl⟩
  | applied s0 d O h0 =>
    have hrun : s0.ctl = .run := by
      obtain ⟨rfl, hc, -⟩ | ⟨rfl, -⟩ := h0
      · exact hc
      · rfl
    exact absurd ht (ctl_executed_completeIfDone d O hrun)

/-- The input that the next event would have complete: with the byte it writes to DIN, or at an engine step
as it stands (R58; log 4). -/
def State.InputNext (s : State) (I : List Byte) : Prop :=
  (∃ v, s.written = some (.din, v) ∧ I = s.run.inBuf ++ [v.extractLsb' 0 8]) ∨
    ((s.pending = [] ∨ s.pending.head? = some .engine) ∧ I = s.run.inBuf)

/-- Why the next event raises a fault, and what FAULT_INFO records: a constructor per cause (R241, R242). -/
inductive FaultReason (s : State) : Cause → Word → Prop
  | illegalCmd {w : Word} {why : Illegal} (hc : s.ctl = .idle) (hw : s.written = some (.cmd, w))
      (hd : decode s.params.ctxPort w = .illegal why) : FaultReason s .illegalCmd w
  | modeViolation {w : Word} {i : Instr} (hc : s.ctl = .idle) (hw : s.written = some (.cmd, w))
      (hm : s.session.mode = .hash) (hd : decode s.params.ctxPort w = .command i)
      (hk : needsKeyed i = true) : FaultReason s .modeViolation w
  | keyLength {w : Word} {klen idlen clen : Nat} (hc : s.ctl = .idle)
      (hw : s.written = some (.cmd, w))
      (hd : decode s.params.ctxPort w = .command (.initKeyed klen idlen clen))
      (hk : klen = 0 ∨ 44 < klen + idlen + 1) : FaultReason s .keyLength w
  | cmdWhileBusy {w : Word} (hc : s.ctl = .run) (hw : s.written = some (.cmd, w)) :
      FaultReason s .cmdWhileBusy w
  | dinUnexpected {v : Word} (hw : s.written = some (.din, v)) (hf : s.dinFree = false) :
      FaultReason s .dinUnexpected v
  | doutEmpty (hr : s.readsNext = some .dout) (ha : s.doutAvail = false) : FaultReason s .doutEmpty 0
  | ctxInvalid {I : List Byte} (hc : s.ctl = .run)
      (hd : decode s.params.ctxPort s.run.cur = .command .ctxRestore) (hI : s.InputNext I)
      (hlen : I.length = s.run.inNeed) (hbad : (imageContextByte I).extractLsb' 2 6 ≠ 0) :
      FaultReason s .ctxInvalid (zext32 (imageContextByte I))

theorem FaultReason.cause_ne_none (h : FaultReason s c info) : c ≠ .none := by
  cases h <;> simp

/-- FAULT ENTRY at the next event: it is taken off, and a DOUT read returns 0 (R250, R251). -/
def State.faultEntry (s : State) (n : Nat) (c : Cause) (info : Word) : State :=
  { (s.popped n).raise c info with
    replies := if s.readsNext = some .dout then s.replies ++ [0] else s.replies }

theorem raise_eq_faultEntry (h : s.readsNext = none) (n : Nat) (c : Cause) (info : Word) :
    (s.popped n).raise c info = s.faultEntry n c info := by
  simp [State.faultEntry, h, State.raise]

theorem raise_reply_eq_faultEntry (h : s.readsNext = some .dout) (n : Nat) (c : Cause) (info : Word) :
    ((s.popped n).raise c info).reply 0 = s.faultEntry n c info := by
  simp [State.faultEntry, h, State.raise, State.reply]

/-- Every step into FAULT is a fault entry for one of the reasons. -/
theorem step_enters_fault (hst : step s = .next t) (hs : s.ctl ≠ .fault) (ht : t.ctl = .fault) :
    ∃ n c info, FaultReason s c info ∧ t = s.faultEntry n c info := by
  cases step_cases hst with
  | readQuiet | quiet | dinTake | engineMove => exact absurd ht hs
  | reset => cases ht
  | doutTake n b rest _ hc =>
    rw [State.reply_ctl] at ht
    obtain ⟨-, -, -, h⟩ | ⟨-, h⟩ := completeIfDone_cases
      { s.popped n with run := { s.run with outBuf := rest, outLeft := s.run.outLeft - 1 } }
    · rw [h] at ht
      cases ht
    · rw [h] at ht
      exact absurd ht hs
  | cmdBusy n w hw hc =>
    exact ⟨n, _, _, .cmdWhileBusy hc hw, raise_eq_faultEntry (readsNext_of_written hw) ..⟩
  | cmdIllegal n w why hw hc hd =>
    exact ⟨n, _, _, .illegalCmd hc hw hd, raise_eq_faultEntry (readsNext_of_written hw) ..⟩
  | dinBad n v hw _ hf =>
    exact ⟨n, _, _, .dinUnexpected hw hf, raise_eq_faultEntry (readsNext_of_written hw) ..⟩
  | doutBad n hr _ ha => exact ⟨n, _, _, .doutEmpty hr ha, raise_reply_eq_faultEntry hr ..⟩
  | present n w i _ hw hc hd hx =>
    obtain ⟨c, -, hv, rfl⟩ | ⟨hrun, -⟩ := exec_enters_fault hx hs ht
    · refine ⟨n, c, w, ?_, by rw [← raise_eq_faultEntry (readsNext_of_written hw), encode_of_decode hd]⟩
      obtain ⟨rfl, hm, hk⟩ | ⟨rfl, klen, idlen, clen, rfl, hk⟩ := violation_of_decode hd hv
      · exact .modeViolation hc hw hm hd hk
      · exact .keyLength hc hw hd hk
    · simp [hc] at hrun
  | dinExec n v i _ hw hc _ _ _ hd hx =>
    obtain ⟨c, hidle, -⟩ | ⟨-, hlen, rfl, hbad, rfl⟩ := exec_enters_fault hx hs ht
    · simp [hc] at hidle
    · exact ⟨n, _, _, .ctxInvalid hc hd (.inl ⟨v, hw, rfl⟩) hlen hbad,
        raise_eq_faultEntry (readsNext_of_written hw) ..⟩
  | engineExec n i _ hp _ hr hc _ _ hd hx =>
    obtain ⟨c, hidle, -⟩ | ⟨-, hlen, rfl, hbad, rfl⟩ := exec_enters_fault hx hs ht
    · simp [hc] at hidle
    · exact ⟨n, _, _, .ctxInvalid hc hd (.inr ⟨hp, rfl⟩) hlen hbad,
        raise_eq_faultEntry hr ..⟩

/-- Settles O30: every entry is `State.faultEntry`, which writes neither the session nor the parameters. -/
theorem faultEntryKeepsTheSession : Obligations.FaultEntryKeepsTheSession := by
  intro s t hst hs ht
  obtain ⟨n, c, info, hreason, rfl⟩ := step_enters_fault hst hs ht
  exact ⟨rfl, rfl, hreason.cause_ne_none, rfl, rfl, rfl⟩

/-- In RUN, IN_NEED is InLen of the command of CUR (R27, R57). -/
theorem inNeed_of_inv (h : s.Inv) (hc : s.ctl = .run)
    (hd : decode s.params.ctxPort s.run.cur = .command i) : s.run.inNeed = inLen i := by
  obtain ⟨-, -, hrecord, -⟩ := h
  obtain ⟨-, hneed, -⟩ := (recordOk_iff hd).1 (hrecord hc)
  exact hneed

/-- Settles O31, reason by reason; the invariant makes the image of CTX_RESTORE 49 bytes long, so that its
context byte is there. -/
theorem faultInfoRecordsTheAccess : Obligations.FaultInfoRecordsTheAccess := by
  intro s t hinv hst hs ht
  obtain ⟨n, c, info, hreason, rfl⟩ := step_enters_fault hst hs ht
  cases hreason with
  | illegalCmd hc hw hd => exact ⟨hc, hw, _, hd⟩
  | modeViolation hc hw hm hd hk => exact ⟨hc, hw, hm, _, hd, hk⟩
  | keyLength hc hw hd hk => exact ⟨hc, hw, _, _, _, hd, hk⟩
  | cmdWhileBusy hc hw => exact ⟨hc, hw⟩
  | dinUnexpected hw hf => exact ⟨hw, hf⟩
  | doutEmpty hr ha => exact ⟨hr, ha, rfl⟩
  | @ctxInvalid I hc hd hI hlen hbad =>
    have hI49 : I.length = 49 := hlen.trans (inNeed_of_inv hinv hc hd)
    have hbyte : I[48]? = some (I[48]'(by omega)) := List.getElem?_eq_getElem _
    have himage := imageContextByte_of_getElem? hbyte
    exact ⟨hc, (encode_of_decode hd).symm, I, _, hI, hI49, hbyte, himage ▸ hbad,
      congrArg zext32 himage⟩

/-! ### Out of FAULT (R252, R253) -/

/-- A read is no reset (R280). -/
theorem not_resetNext_of_read {r : Reg} (h : s.readsNext = some r) : ¬ s.resetNext := by
  rintro (hreset | ⟨v, hw, -⟩)
  · obtain ⟨rest, hp⟩ := List.head?_eq_some_iff.1 hreset
    simp [State.readsNext, hp] at h
  · simp [readsNext_of_written hw] at h

/-- In FAULT a step is a reset, or it changes nothing but the schedule, the replies and the free-value
counter, with 0 for a DOUT read (R252, R253). -/
theorem step_of_fault (hs : s.ctl = .fault) (hst : step s = .next t) :
    (∃ n, s.resetNext ∧ t = (s.popped n).engineReset) ∨
    (∃ n v r, ¬ s.resetNext ∧ s.readsNext = some r ∧ (r = .dout → v = 0) ∧ t = (s.popped n).reply v) ∨
    (∃ n, ¬ s.resetNext ∧ s.readsNext = none ∧ t = s.popped n) := by
  cases step_cases hst with
  | reset n h => exact .inl ⟨n, h, rfl⟩
  | readQuiet n v r hr hq =>
    exact .inr (.inl ⟨n, v, r, not_resetNext_of_read hr, hr,
      fun hdout => (hq.resolve_left (not_not_intro hdout)).2, rfl⟩)
  | quiet n h hr => exact .inr (.inr ⟨n, h, hr, rfl⟩)
  | dinBad n v _ hc | doutBad n _ hc => exact absurd hs hc
  | cmdBusy _ _ _ hc | cmdIllegal _ _ _ _ hc | present _ _ _ _ _ hc | dinTake _ _ _ hc
  | dinExec _ _ _ _ _ hc | engineExec _ _ _ _ _ _ hc | engineMove _ _ _ _ hc
  | doutTake _ _ _ _ hc => simp [hs] at hc

/-- Settles O32: the ways of `step_of_fault`. -/
theorem faultIsLeftOnlyByReset : Obligations.FaultIsLeftOnlyByReset := by
  intro s t hs hst
  obtain ⟨n, h, rfl⟩ | ⟨n, v, r, h, hr, hv, rfl⟩ | ⟨n, h, hr, rfl⟩ := step_of_fault hs hst
  · exact ⟨fun _ => rfl, fun hno => absurd h hno⟩
  · refine ⟨fun hreset => absurd hreset h, fun _ => ⟨rfl, fun hdout => ?_⟩⟩
    rw [hv (Option.some.inj (hr.symm.trans hdout))]
    rfl
  · exact ⟨fun hreset => absurd hreset h, fun _ => ⟨rfl, fun hdout => by simp [hr] at hdout⟩⟩

end Sys2Proof.Machine

/-! PROOFS. Reset from every state (R280, R245), and the host that keeps the protocol (R290). -/

namespace Sys2Proof.Machine

variable {s : State} {e : HostEvent} {rest : List HostEvent}

/-! ### Reset (R280) -/

theorem step_of_reset (hp : s.pending = .reset :: rest) : step s = .next (s.before rest).engineReset := by
  simp [step, hp, event, State.before]

/-- Settles O35: the reset input and SRST are both `State.engineReset`, in every state. -/
theorem resetFromEveryState : Obligations.ResetFromEveryState := by
  intro s rest t
  refine ⟨step_of_reset, fun addr v off hp hw hr hv => ?_⟩
  rw [step_of_write hp hw, regWrite, hr]
  exact congrArg _ (if_pos hv)

/-! ### The host protocol (R290, items 1 to 3) -/

/-- A host that keeps the protocol writes CMD in IDLE only, and DIN only when DIN_FREE = 1 (R290, items 1
and 2). -/
theorem hostObeys_written {r : Reg} {v : Word} (hp : s.pending = e :: rest)
    (ho : s.hostObeys e = true) (hw : s.written = some (r, v)) :
    (r = .cmd → s.ctl = .idle) ∧ (r = .din → s.dinFree = true) := by
  cases e with
  | read | reset | engine => simp [State.written, hp] at hw
  | write =>
    simp only [State.written, hp, Option.map_eq_some_iff, Prod.mk.injEq] at hw
    obtain ⟨off, hoff, rfl, -⟩ := hw
    simpa [State.hostObeys, hoff, ← imp_iff_not_or] using ho
  | writeLanes =>
    simp only [State.written, hp, Option.map_eq_some_iff, Prod.mk.injEq] at hw
    obtain ⟨off, hoff, rfl, -⟩ := hw
    obtain ⟨hcmd, hdin⟩ : regOf off ≠ .cmd ∧ (regOf off = .din → s.dinFree = true) := by
      simpa [State.hostObeys, hoff, ← imp_iff_not_or] using ho
    exact ⟨fun h => absurd h hcmd, hdin⟩

/-- A host that keeps the protocol reads DOUT only when DOUT_AVAIL = 1 (R290, item 3). -/
theorem hostObeys_readsNext_dout (hp : s.pending = e :: rest) (ho : s.hostObeys e = true)
    (hr : s.readsNext = some .dout) : s.doutAvail = true := by
  cases e with
  | write | writeLanes | reset | engine => simp [State.readsNext, hp] at hr
  | read addr =>
    simp only [State.readsNext, hp, Option.map_eq_some_iff] at hr
    obtain ⟨off, hoff, hreg⟩ := hr
    simpa [State.hostObeys, hoff, hreg] using ho

/-- Settles O37: of the reasons for a fault, the protocol excludes the three of an access at the wrong time;
the invariant is not needed. -/
theorem protocolHostMeetsOnlyContractFaults : Obligations.ProtocolHostMeetsOnlyContractFaults := by
  intro s t e rest _ hp ho hst hs ht
  obtain ⟨n, c, info, hreason, rfl⟩ := step_enters_fault hst hs ht
  show c = .illegalCmd ∨ c = .modeViolation ∨ c = .keyLength ∨ c = .ctxInvalid
  cases hreason with
  | illegalCmd | modeViolation | keyLength | ctxInvalid => simp
  | cmdWhileBusy hc hw => simp [(hostObeys_written hp ho hw).1 rfl] at hc
  | dinUnexpected hw hf => simp [(hostObeys_written hp ho hw).2 rfl] at hf
  | doutEmpty hr ha => simp [hostObeys_readsNext_dout hp ho hr] at ha

end Sys2Proof.Machine
